-- ==== Sys2Proof/Word.lean ====
section
/-!
DEFINITION. The bit-vector widths of the DCF77rxtm core (00_scope.md R8, R10): every multi-bit value
on a port or in a register, with bit 0 least significant. One-bit values are `Bool`, `true` for 1.
-/
namespace Sys2Proof

/-- A command word `CMD[259:0]` (30_encoding.md R71; `CMD_WIDTH`). -/
abbrev CommandWord := BitVec 260

/-- A result word `RES[256:0]` (R79), as wide as a record image `REC[256:0]` (R86; `REC_WIDTH`). -/
abbrev ResultWord := BitVec 257

/-- The bit buffer and a frame value (10_state.md R21; `BUF_WIDTH`). -/
abbrev FrameWord := BitVec 64

/-- The position counter (10_state.md R22; `POS_WIDTH`). -/
abbrev PosWord := BitVec 6

/-- A sample timestamp, unsigned milliseconds modulo 2^32 (R73, R111; `TS_WIDTH`). -/
abbrev TsWord := BitVec 32

/-- The image of a Timestamp, 64-bit two's complement seconds (30_encoding.md R88; `T_WIDTH`). -/
abbrev TimeWord := BitVec 64

/-- An integer field of a CalendarRecord, 32-bit two's complement (30_encoding.md R86; `F_WIDTH`). -/
abbrev FieldWord := BitVec 32

end Sys2Proof
end

