-- ==== Sys2Proof/Config.lean ====
section
/-!
DEFINITION. What is fixed for the machine (00_scope.md R8, 10_state.md R32): the hardwired constants,
the two OPEN reset parameters with the spec's defaults, and the one value the spec leaves free.
-/
namespace Sys2Proof.Config

/-- `FRAME_BITS`: bits per frame, the capacity of the bit buffer. -/
@[simp] abbrev frameBits : Nat := 59

/-- `SPLIT_MS`: the bit split threshold in milliseconds (40_pulse_decoder.md R113). -/
@[simp] abbrev splitMs : Nat := 170

/-- `SYNC_MS`: the sync-gap threshold in milliseconds (40_pulse_decoder.md R112; conflict C2). -/
@[simp] abbrev syncMs : Nat := 1200

/-- `SEG_START`, minutes: appending here first clears the running parity (R58). -/
@[simp] abbrev startMin : Nat := 21

/-- `SEG_START`, hours. -/
@[simp] abbrev startHour : Nat := 29

/-- `SEG_START`, date. -/
@[simp] abbrev startDate : Nat := 36

/-- `SEG_END`, minutes: appending here first latches the running parity; this is the index of P1. -/
@[simp] abbrev endMin : Nat := 28

/-- `SEG_END`, hours; the index of P2. -/
@[simp] abbrev endHour : Nat := 35

/-- `SEG_END`, date; the index of P3. -/
@[simp] abbrev endDate : Nat := 58

/-- `BASE_YEAR`: the year field is an offset from it. -/
@[simp] abbrev baseYear : Int := 1900

/-- `SECS_PER_DAY`; no leap seconds (30_encoding.md R88). -/
@[simp] abbrev secsPerDay : Int := 86400

/-- The two OPEN parameters of the reset state (00_scope.md R8, 10_state.md R36; log 2). -/
structure ResetParams where
  /-- `PREV_LEVEL_RESET`. -/
  prevLevel : Bool
  /-- `PREV_TS_RESET`. -/
  prevTs : TsWord
  deriving DecidableEq, Repr

/-- The spec's defaults for the open parameters, 0 and 0. DESIGN CHOICE, unsafe (log 2). -/
def defaultResetParams : ResetParams := { prevLevel := false, prevTs := 0 }

/-- FREE VALUE (log 4): the timestamp C2T gives for a month outside 0..11, "any 64-bit value"
(42_calendar_converter.md R189). It has no body, so nothing can be proved of it. `draw` makes each
use a fresh one; the other arguments are the six fields C2T reads (R183). -/
opaque freeTimestamp (draw : Nat) (sec min hour monthDay month year : FieldWord) : TimeWord

end Sys2Proof.Config
end

