-- ==== Sys2Proof/Syntax.lean ====
section
/-!
DEFINITION. The operations of the DCF77rxtm core as data: one constructor for each row of
spec/opcode_table.json, in the table's order.
-/
namespace Sys2Proof

/-- A CalendarRecord (30_encoding.md R86): eight 32-bit two's complement integers and a flag, in the
order of the image. No range is implied: no operation checks one (60_exceptions.md R204). -/
structure CalendarRecord where
  /-- Seconds, `REC[31:0]`. -/
  sec : FieldWord
  /-- Minutes, `REC[63:32]`. -/
  min : FieldWord
  /-- Hours, `REC[95:64]`. -/
  hour : FieldWord
  /-- Day of the month, 1-based, `REC[127:96]`. -/
  monthDay : FieldWord
  /-- Month, 0 = January, `REC[159:128]`. -/
  month : FieldWord
  /-- Calendar year minus 1900, `REC[191:160]`. -/
  year : FieldWord
  /-- Day of the week, 0 = Sunday, `REC[223:192]`. -/
  weekday : FieldWord
  /-- Day of the year, 0-based, or -1 for unknown, `REC[255:224]`. -/
  yearDay : FieldWord
  /-- The daylight-saving flag, `REC[256]`. -/
  isDst : Bool
  deriving DecidableEq, Repr

/-- The six operations (00_scope.md R3). `sample`, `fdec`, `t2c` and `c2t` are the commands of the
command port (30_encoding.md R92); `appendBit` and `conclude` are micro-operations with no command
encoding, invoked from within SAMPLE (R94). -/
inductive Instr where
  /-- SAMPLE level, ts (40_pulse_decoder.md R110). -/
  | sample (level : Bool) (ts : TsWord)
  /-- FDEC frame (41_field_decoder.md R140). -/
  | fdec (frame : FrameWord)
  /-- T2C t, dst (42_calendar_converter.md R170). -/
  | t2c (t : TimeWord) (dst : Bool)
  /-- C2T record (42_calendar_converter.md R182). -/
  | c2t (r : CalendarRecord)
  /-- APPENDBIT b (40_pulse_decoder.md R120). -/
  | appendBit (b : Bool)
  /-- CONCLUDE (40_pulse_decoder.md R125). -/
  | conclude
  deriving DecidableEq, Repr

end Sys2Proof
end

