-- ==== Sys2Proof/Machine/State.lean ====
section
/-!
DEFINITION. The state of the DCF77rxtm core: the eight registers of 10_state.md R20, the two output
ports as the last transaction left them, what the host presents next, and the model's own fields.
Also the outcomes other than a next state, and reset.
-/
namespace Sys2Proof.Machine

/-- Reasons a step can stop with a fault: NONE. "A model has no fault constructor for this hardware;
the step function of every command is total" (60_exceptions.md R205; log 13). -/
inductive Fault where
  deriving DecidableEq, Repr

/-- Reasons the model has no meaning for an operation. -/
inductive Refusal where
  /-- Raised only by an arm of `exec` whose operation has no meaning yet; no arm does. Safe. -/
  | notModelled (mnemonic : String)
  deriving DecidableEq, Repr

/-- A FRAME event (30_encoding.md R80): what `frm_frame` and `frm_ts` carry while `frm_valid` is 1. -/
structure FrameEvent where
  /-- `frm_frame`: the 64-bit frame value. -/
  frame : FrameWord
  /-- `frm_ts`: the `ts` of the SAMPLE that caused the CONCLUDE. -/
  ts : TsWord
  deriving DecidableEq, Repr

/-- What the host does to the hardware, one item a transaction (30_encoding.md R70; log 6, log 8). -/
inductive HostInput where
  /-- A command word offered on the command port and accepted. -/
  | cmd (w : CommandWord)
  /-- `rst` asserted (70_reset_and_hazards.md R230). -/
  | rst
  deriving DecidableEq, Repr

structure State where
  /-- `BUF`, the bit buffer: index i in bit i (10_state.md R21). -/
  buf : FrameWord
  /-- `POS`, the number of bits appended since the last CONCLUDE or reset (R22). -/
  pos : PosWord
  /-- `PREV_LEVEL`, the level of the last accepted sample (R23). -/
  prevLevel : Bool
  /-- `PREV_TS`, the timestamp of the last accepted sample (R24). -/
  prevTs : TsWord
  /-- `PAR_RUN`, the running parity of the open segment (R25). -/
  parRun : Bool
  /-- `PAR_MIN`, the latched parity of the minutes segment (R26). -/
  parMin : Bool
  /-- `PAR_HOUR`, the latched parity of the hours segment (R27). -/
  parHour : Bool
  /-- `PAR_DATE`, the latched parity of the date segment (R28). -/
  parDate : Bool
  /-- The result port: `some RES` when the last transaction gave a result, none when `res_valid` stayed
  0 (30_encoding.md R79; log 7). -/
  res : Option ResultWord
  /-- The event port: `some` when the last transaction emitted a FRAME event (R80; log 7). -/
  frm : Option FrameEvent
  /-- What the host presents from now on, in order; the environment's, not the hardware's (log 6). -/
  inputs : List HostInput
  /-- The values of the OPEN reset parameters on this chip; nothing writes it (R36; log 2). -/
  resetParams : Config.ResetParams
  /-- The MODEL'S OWN counter of free values drawn (log 4). -/
  freeDraws : Nat
  deriving DecidableEq, Repr

/-- The state right after reset of a chip with the open parameters `p` (10_state.md R36; ports not
valid, 70_reset_and_hazards.md R230), with nothing presented by the host. -/
def State.resetTo (p : Config.ResetParams) : State where
  buf := 0
  pos := 0
  prevLevel := p.prevLevel
  prevTs := p.prevTs
  parRun := false
  parMin := false
  parHour := false
  parDate := false
  res := none
  frm := none
  inputs := []
  resetParams := p
  freeDraws := 0

/-- The machine right after reset, with the spec's default parameters (log 2). -/
def State.reset : State := State.resetTo Config.defaultResetParams

end Sys2Proof.Machine
end

