-- ==== Sys2Proof/Machine/Flags.lean ====
section
/-!
DEFINITION. The parity bits, the only flag-like state (10_state.md R31): the three parity steps of
APPENDBIT and the even-parity check of a segment.
-/
namespace Sys2Proof.Machine

/-- `p` is a segment start, 21, 29 or 36 (30_encoding.md R58). -/
def opensSegment (p : Nat) : Bool :=
  p == Config.startMin || p == Config.startHour || p == Config.startDate

/-- Step 2 of APPENDBIT: the running parity after the clear at a segment start
(40_pulse_decoder.md R120). -/
def clearAtStart (p : Nat) (run : Bool) : Bool := if opensSegment p then false else run

/-- Step 3 of APPENDBIT for one latch: it takes the running parity at its segment's end and keeps its
value elsewhere (R120). -/
def latchAt (endPos p : Nat) (run old : Bool) : Bool := if p = endPos then run else old

/-- Step 4 of APPENDBIT: a 1 inverts the running parity (R120). -/
def foldBit (run b : Bool) : Bool := if b then !run else run

/-- The exclusive-or of `n` bits of `f` from index `lo` upward. -/
def parityOf (f : FrameWord) (lo : Nat) : Nat → Bool
  | 0 => false
  | n + 1 => parityOf f lo n ^^ f.getLsbD (lo + n)

/-- All three segments of `f`, parity bits included, hold an even number of ones: 28:21, 35:29, 58:36
(30_encoding.md R85, 40_pulse_decoder.md R126). -/
def framePasses (f : FrameWord) : Bool :=
  !parityOf f 21 8 && !parityOf f 29 7 && !parityOf f 36 23

end Sys2Proof.Machine
end

