-- ==== Sys2Proof/WellFormed.lean ====
section
/-!
DEFINITION. Which operations are commands the host can issue. Every operand has exactly the width its
format gives it, so the one check left is that the operation has a command encoding at all.
-/
namespace Sys2Proof

/-- The operation can be issued on the command port: SAMPLE, FDEC, T2C and C2T with any operands; not
the two micro-operations, which "have no command encoding" (30_encoding.md R94). -/
def Instr.wellFormed : Instr → Bool
  | .sample _ _ => true
  | .fdec _ => true
  | .t2c _ _ => true
  | .c2t _ => true
  | .appendBit _ => false
  | .conclude => false

end Sys2Proof
end

