-- ==== Sys2Proof/Decode.lean ====
section
/-!
DEFINITION. The command word: decoding, total on every 260-bit word, and encoding. The decoder follows
the bit tables of 30_encoding.md R71 to R76 and R86; the encoder follows the integer formulas that
stand beside those tables, so the two are written independently.
-/
namespace Sys2Proof

/-- Why a command word names no operation. -/
inductive DecodeError where
  /-- `op` is one of the four reserved codes 000, 101, 110, 111 (30_encoding.md R78). -/
  | reservedOp (op : BitVec 3)
  deriving DecidableEq, Repr

/-- The record whose image is `x`: `sec` in bits 31:0 and so on upward, `isDst` in bit 256 (R86). -/
def recordOfImage (x : ResultWord) : CalendarRecord where
  sec := x.extractLsb' 0 32
  min := x.extractLsb' 32 32
  hour := x.extractLsb' 64 32
  monthDay := x.extractLsb' 96 32
  month := x.extractLsb' 128 32
  year := x.extractLsb' 160 32
  weekday := x.extractLsb' 192 32
  yearDay := x.extractLsb' 224 32
  isDst := x.getLsbD 256

/-- The image `REC[256:0]` of a record (R86): the fields concatenated, `isDst` most significant. -/
def recordImage (r : CalendarRecord) : ResultWord :=
  BitVec.ofBool r.isDst ++ r.yearDay ++ r.weekday ++ r.year ++ r.month ++ r.monthDay ++ r.hour
    ++ r.min ++ r.sec

/-- `CMD[2:0]`, the `op` field (R71). -/
def opField (w : CommandWord) : BitVec 3 := w.extractLsb' 0 3

/-- The operation a command word names (R72 to R76); bits outside the operands are not looked at
(R77). A reserved `op` is rejected by name (R78). -/
def decode (w : CommandWord) : Except DecodeError Instr :=
  if opField w = 0b001#3 then .ok (.sample (w.getLsbD 3) (w.extractLsb' 4 32))
  else if opField w = 0b010#3 then .ok (.fdec (w.extractLsb' 3 64))
  else if opField w = 0b011#3 then .ok (.t2c (w.extractLsb' 4 64) (w.getLsbD 3))
  else if opField w = 0b100#3 then .ok (.c2t (recordOfImage (w.extractLsb' 3 257)))
  else .error (.reservedOp (opField w))

/-- The command word of an issuable operation, ignored bits 0: `1 + 8*level + 16*ts` (R73),
`2 + 8*frame` (R74), `3 + 8*dst + 16*trunc_64(t)` (R75), `4 + 8*REC` (R76). The micro-operations have
none (R94). -/
def encode : Instr → Option CommandWord
  | .sample level ts => some (BitVec.ofNat 260 (1 + 8 * level.toNat + 16 * ts.toNat))
  | .fdec frame => some (BitVec.ofNat 260 (2 + 8 * frame.toNat))
  | .t2c t dst => some (BitVec.ofNat 260 (3 + 8 * dst.toNat + 16 * t.toNat))
  | .c2t r => some (BitVec.ofNat 260 (4 + 8 * (recordImage r).toNat))
  | .appendBit _ => none
  | .conclude => none

/-- The command word whose lowest `nbits` bits are those of `w` and whose other bits are 0. The word is
presented whole on the port, so there is no byte order (20_memory.md R53; log 19). -/
def tableWord (nbits w : Nat) : CommandWord := BitVec.ofNat 260 (w % 2 ^ nbits)

/-- The operation the decoder reads from a word numbered as spec/opcode_table.json numbers it; none
where the decoder rejects it. -/
def decodeTableWord (nbits w : Nat) : Option Instr :=
  match decode (tableWord nbits w) with
  | .ok i => some i
  | .error _ => none

end Sys2Proof
end

