-- ==== Sys2Proof/Machine/Operands.lean ====
section
/-!
DEFINITION. Operand forms and narrowings: elapsed time, frame sub-fields, the packed-decimal decode,
sign extension on input and truncation on output, and the result word of each converter command.
-/
namespace Sys2Proof.Machine

/-- Elapsed milliseconds between the previous accepted sample and this one, the unsigned 32-bit
difference (40_pulse_decoder.md R111). -/
def elapsedMs (prevTs ts : TsWord) : Nat := (ts - prevTs).toNat

/-- `field(f, lo, w) = (f >> lo) mod 2^w` (30_encoding.md R84). -/
def subField (f : FrameWord) (lo w : Nat) : Nat := (f.toNat >>> lo) % 2 ^ w

/-- The packed-decimal decode `bcd(v) = v - (v div 16) * 6`, for every `v` (41_field_decoder.md R141). -/
def bcd (v : Nat) : Nat := v - v / 16 * 6

/-- `sext_32`: an integer field read as a two's complement integer (30_encoding.md R87). -/
def sext32 (v : FieldWord) : Int := v.toInt

/-- `sext_64`: a timestamp image read as a two's complement integer (R88). -/
def sext64 (v : TimeWord) : Int := v.toInt

/-- `trunc_32`: an integer narrowed to a record field (R87). -/
def trunc32 (x : Int) : FieldWord := BitVec.ofInt 32 x

/-- `trunc_64`: an integer narrowed to a timestamp image (R88). -/
def trunc64 (x : Int) : TimeWord := BitVec.ofInt 64 x

/-- The result word of C2T: the timestamp in `RES[63:0]`, `RES[256:64]` zero (R79). -/
def timeResult (t : TimeWord) : ResultWord := t.setWidth 257

end Sys2Proof.Machine
end

