-- ==== Sys2Proof/Machine/Ops.lean ====
section
/-!
DEFINITION. The named operations over the state: access to the bit buffer, the two micro-operations,
the writes of SAMPLE, delivery on the two output ports (the FRAME event stands in place of a trap
entry, 60_exceptions.md R210), and the start of a transaction, reset and idling.
-/
namespace Sys2Proof.Machine

/-- `BufWrite(i, b)`: bit `i` takes the value `b`, every other bit is unchanged (00_scope.md R13;
overwrite, decision D10). -/
def bufWrite (buf : FrameWord) (i : Nat) (b : Bool) : FrameWord :=
  (buf &&& ~~~(1#64 <<< i)) ||| ((BitVec.ofBool b).setWidth 64 <<< i)

/-- `BufRead(i)` (00_scope.md R13). -/
def bufRead (buf : FrameWord) (i : Nat) : Bool := buf.getLsbD i

/-- The parity bit P1 of the minutes segment, `BUF[28]` (30_encoding.md R85). -/
def parityBitMin (buf : FrameWord) : Bool := bufRead buf Config.endMin

/-- The parity bit P2 of the hours segment, `BUF[35]`. -/
def parityBitHour (buf : FrameWord) : Bool := bufRead buf Config.endHour

/-- The parity bit P3 of the date segment, `BUF[58]`. -/
def parityBitDate (buf : FrameWord) : Bool := bufRead buf Config.endDate

/-- APPENDBIT(b) (40_pulse_decoder.md R120): the overflow guard, the store, the clear at a segment
start, the latch at a segment end, the fold, the advance. At the unreachable positions 60 to 63 it
changes nothing (10_state.md R22, R30; log 1). -/
def appendBit (b : Bool) (s : State) : State :=
  if s.pos.toNat < Config.frameBits then
    let p := s.pos.toNat
    let run := clearAtStart p s.parRun
    { s with
      buf := bufWrite s.buf p b
      parMin := latchAt Config.endMin p run s.parMin
      parHour := latchAt Config.endHour p run s.parHour
      parDate := latchAt Config.endDate p run s.parDate
      parRun := foldBit run b
      pos := s.pos + 1 }
  else s

/-- Step 1 of CONCLUDE, the success condition: 59 bits, and each latch equals its parity bit
(40_pulse_decoder.md R125, R126). -/
def concludeOk (s : State) : Bool :=
  s.pos.toNat == Config.frameBits && s.parMin == parityBitMin s.buf
    && s.parHour == parityBitHour s.buf && s.parDate == parityBitDate s.buf

/-- Step 3 of CONCLUDE: buffer, position and the four parity registers become 0, in every case (R127). -/
def clearAssembler (s : State) : State :=
  { s with buf := 0, pos := 0, parRun := false, parMin := false, parHour := false, parDate := false }

/-- CONCLUDE(): the pair `(ok, f)` it returns, read before the clear, and the state it leaves (R125).
`f` is the buffer in both cases (log 17). -/
def conclude (s : State) : (Bool × FrameWord) × State :=
  ((concludeOk s, s.buf), clearAssembler s)

/-- `emit FRAME(f, t)`: the event is placed on the event port (00_scope.md R14, 60_exceptions.md R206,
R210). -/
def emitFrame (f : FrameWord) (t : TsWord) (s : State) : State :=
  { s with frm := some { frame := f, ts := t } }

/-- The falling-edge part of SAMPLE past the sync threshold: CONCLUDE, then the event if it succeeded
(R110 step 3, R128). -/
def minuteBoundary (ts : TsWord) (s : State) : State :=
  let ((ok, f), s') := conclude s
  if ok then emitFrame f ts s' else s'

/-- Step 4 of SAMPLE: the sample becomes the previous sample (R114). -/
def recordSample (level : Bool) (ts : TsWord) (s : State) : State :=
  { s with prevLevel := level, prevTs := ts }

/-- The result word of a converter command appears on the result port (30_encoding.md R79). -/
def deliverResult (r : ResultWord) (s : State) : State := { s with res := some r }

/-- The model's own counter advances after a free value was drawn (log 4). -/
def countDraw (s : State) : State := { s with freeDraws := s.freeDraws + 1 }

/-- A transaction begins: `rest` is what the host presents after it, and neither output port is valid
unless the operation makes it so (R79, R80; log 7). -/
def openTransaction (rest : List HostInput) (s : State) : State :=
  { s with inputs := rest, res := none, frm := none }

/-- A command word with a reserved `op`: accepted, "changes no state, produces no result word and
emits no event" (30_encoding.md R78; log 3). -/
def acceptReserved (s : State) : State := s

/-- `rst`: every register takes its reset value and no port is valid (70_reset_and_hazards.md R230).
The host's further inputs and the model's draw counter are not the hardware's and stay. -/
def applyReset (rest : List HostInput) (s : State) : State :=
  { State.resetTo s.resetParams with inputs := rest, freeDraws := s.freeDraws }

/-- The host presents `w` as the next command, before everything else it was going to present. -/
def presentCommand (w : CommandWord) (s : State) : State := { s with inputs := .cmd w :: s.inputs }

end Sys2Proof.Machine
end

