-- ==== Sys2Proof/Machine/Calendar.lean ====
section
/-!
DEFINITION. The meanings of T2C and C2T (42_calendar_converter.md). The arithmetic is over `Int`: no
intermediate value leaves the 64-bit range (R160, R181, R190; log 12), and `/` and `%` on `Int` with
the positive constant divisors used here are floor division and its remainder (R160, decision D18).
-/
namespace Sys2Proof.Machine

/-- A leap year of the proleptic Gregorian calendar (R161). -/
def leap (Y : Int) : Bool := decide ((Y % 4 = 0 ∧ Y % 100 ≠ 0) ∨ Y % 400 = 0)

/-- `leap(Y)` as a number: 1 in a leap year, else 0 (R161). -/
def leapDay (Y : Int) : Int := if leap Y then 1 else 0

/-- `CUM[0]`: days of a common year before each month (R162). -/
def cumCommon : List Int := [0, 31, 59, 90, 120, 151, 181, 212, 243, 273, 304, 334]

/-- `CUM[1]`: days of a leap year before each month (R162). -/
def cumLeap : List Int := [0, 31, 60, 91, 121, 152, 182, 213, 244, 274, 305, 335]

/-- `CUM[leap(Y)][m]`; the table has no entry for `m` outside 0..11 (R162, R189). -/
def cum (Y m : Int) : Option Int :=
  if 0 ≤ m then (if leap Y then cumLeap else cumCommon)[m.toNat]? else none

/-- `L(Y)`, the leap days between 1 Jan 1970 and 1 Jan `Y` (R163, R185). -/
def leapCount (Y : Int) : Int := (Y - 1969) / 4 - (Y - 1901) / 100 + (Y - 1601) / 400

/-- `DAYS(Y, m, d)`, days from 1 Jan 1970 (R163); none where the table has no entry for `m`. -/
def dayCount (Y m d : Int) : Option Int :=
  (cum Y m).map fun c => (Y - 1970) * 365 + leapCount Y + c + (d - 1)

/-- Year of the era from the day of the era (R176). -/
def yearOfEra (doe : Int) : Int := (doe - doe / 1460 + doe / 36524 - doe / 146096) / 365

/-- Day of the March-based year (R177). -/
def marchDay (doe yoe : Int) : Int := doe - (365 * yoe + yoe / 4 - yoe / 100)

/-- Month counted from March (R177). -/
def marchMonth (doy : Int) : Int := (5 * doy + 2) / 153

/-- Day of the month, 1-based (R177). -/
def dayOfMonth (doy mp : Int) : Int := doy - (153 * mp + 2) / 5 + 1

/-- Month counted from January (R178). -/
def januaryMonth (mp : Int) : Int := if mp < 10 then mp + 2 else mp - 10

/-- A date as T2C computes it, before narrowing: `year` is the calendar year `Y`. -/
structure CivilDate where
  year : Int
  month : Int
  monthDay : Int
  weekday : Int
  yearDay : Int
  deriving DecidableEq, Repr

/-- Steps 3 to 9 of T2C: the date of a day count from 1 Jan 1970 (R173 to R180). -/
def civilOfDays (days : Int) : CivilDate :=
  let z := days + 719468
  let era := z / 146097
  let doe := z - era * 146097
  let yoe := yearOfEra doe
  let doy := marchDay doe yoe
  let mp := marchMonth doy
  let month := januaryMonth mp
  let Y := yoe + era * 400 + (if month ≤ 1 then 1 else 0)
  { year := Y
    month := month
    monthDay := dayOfMonth doy mp
    weekday := (z + 3) % 7
    yearDay := if 306 ≤ doy then doy - 306 else doy + 59 + leapDay Y }

/-- The record of a timestamp (R170): day split (R171), time of day (R172), date, the year narrowed to
32 bits (R179; log 5), `isDst` the operand (R181). -/
def recordOfTimestamp (t : Int) (dst : Bool) : CalendarRecord :=
  let rem := t % Config.secsPerDay
  let c := civilOfDays (t / Config.secsPerDay)
  { sec := trunc32 (rem % 60)
    min := trunc32 (rem % 3600 / 60)
    hour := trunc32 (rem / 3600)
    monthDay := trunc32 c.monthDay
    month := trunc32 c.month
    year := trunc32 (c.year - Config.baseYear)
    weekday := trunc32 c.weekday
    yearDay := trunc32 c.yearDay
    isDst := dst }

/-- T2C t, dst: the record's image on the result port (R170, 30_encoding.md R79). -/
def execT2c (t : TimeWord) (dst : Bool) (s : State) : Host.Outcome State Fault Refusal :=
  .next (deliverResult (recordImage (recordOfTimestamp (sext64 t) dst)) s)

/-- Steps 1 to 6 of C2T on the sign-extended fields (R182 to R188); none for a month outside 0..11. -/
def secondsOfRecord (r : CalendarRecord) : Option Int :=
  (dayCount (Config.baseYear + sext32 r.year) (sext32 r.month) (sext32 r.monthDay)).map fun days =>
    days * Config.secsPerDay + sext32 r.hour * 3600 + sext32 r.min * 60 + sext32 r.sec

/-- The free result of C2T for a month outside 0..11 (R189; log 4). -/
def freeSeconds (draw : Nat) (r : CalendarRecord) : TimeWord :=
  Config.freeTimestamp draw r.sec r.min r.hour r.monthDay r.month r.year

/-- C2T r: the timestamp on the result port (R182, 30_encoding.md R79). With a month outside 0..11 the
result is a free value and nothing else happens (R189). -/
def execC2t (r : CalendarRecord) (s : State) : Host.Outcome State Fault Refusal :=
  match secondsOfRecord r with
  | some T => .next (deliverResult (timeResult (trunc64 T)) s)
  | none => .next (countDraw (deliverResult (timeResult (freeSeconds s.freeDraws r)) s))

end Sys2Proof.Machine
end

