-- ==== Sys2Proof/Machine/Decoder.lean ====
section
/-!
DEFINITION. The meanings of the decoder unit: SAMPLE, APPENDBIT, CONCLUDE (40_pulse_decoder.md).
-/
namespace Sys2Proof.Machine

/-- SAMPLE(level, ts) (R110, R131): a same-level repeat changes nothing (R115); a falling edge after
1200 ms or more is a minute boundary (R112); a rising edge appends 1 from 170 ms on, else 0 (R113);
every accepted sample is recorded (R114). -/
def execSample (level : Bool) (ts : TsWord) (s : State) : Host.Outcome State Fault Refusal :=
  if level = s.prevLevel then .next s
  else
    let elapsed := elapsedMs s.prevTs ts
    if level then .next (recordSample level ts (appendBit (decide (Config.splitMs ≤ elapsed)) s))
    else if Config.syncMs ≤ elapsed then .next (recordSample level ts (minuteBoundary ts s))
    else .next (recordSample level ts s)

/-- APPENDBIT(b) on its own (R120); no command reaches it directly (30_encoding.md R94; log 10). -/
def execAppendBit (b : Bool) (s : State) : Host.Outcome State Fault Refusal := .next (appendBit b s)

/-- CONCLUDE on its own (R125); the pair it returns is stored nowhere (10_state.md R31; log 10). -/
def execConclude (s : State) : Host.Outcome State Fault Refusal := .next (conclude s).2

end Sys2Proof.Machine
end

