-- ==== Sys2Proof/Machine/FieldDecoder.lean ====
section
/-!
DEFINITION. The meaning of FDEC (41_field_decoder.md), with the frame layout of 30_encoding.md R83.
-/
namespace Sys2Proof.Machine

/-- The record FDEC makes of a frame value (R140 to R150): packed-decimal decode of six sub-fields, no
validation of any kind (R151). -/
def recordOfFrame (f : FrameWord) : CalendarRecord where
  sec := 0
  min := trunc32 (bcd (subField f 21 7))
  hour := trunc32 (bcd (subField f 29 6))
  monthDay := trunc32 (bcd (subField f 36 6))
  month := trunc32 ((bcd (subField f 45 5) : Int) - 1)
  year := trunc32 (100 + bcd (subField f 50 8))
  weekday := trunc32 (bcd (subField f 42 3) % 7 : Nat)
  yearDay := trunc32 (-1)
  isDst := f.getLsbD 17

/-- FDEC f: the record's image on the result port (R140, 30_encoding.md R79). -/
def execFdec (f : FrameWord) (s : State) : Host.Outcome State Fault Refusal :=
  .next (deliverResult (recordImage (recordOfFrame f)) s)

end Sys2Proof.Machine
end

