-- ==== Sys2Proof/Machine/Dispatch.lean ====
section
/-!
DEFINITION. One arm per operation, each a direct call of its meaning.
-/
namespace Sys2Proof.Machine

def exec (i : Instr) (s : State) : Host.Outcome State Fault Refusal :=
  match i with
  | .sample level ts => Sys2Proof.Machine.execSample level ts s
  | .fdec frame => Sys2Proof.Machine.execFdec frame s
  | .t2c t dst => Sys2Proof.Machine.execT2c t dst s
  | .c2t r => Sys2Proof.Machine.execC2t r s
  | .appendBit b => Sys2Proof.Machine.execAppendBit b s
  | .conclude => Sys2Proof.Machine.execConclude s

end Sys2Proof.Machine
end

