-- ==== Sys2Proof/Machine/Step.lean ====
section
/-!
DEFINITION. One step is one transaction of the hardware (30_encoding.md R70, 20_memory.md R56): the next
thing the host presents, performed whole.
-/
namespace Sys2Proof.Machine

/-- The next transaction. Nothing presented: the machine waits, no register changes, no port is valid
(60_exceptions.md R215, R216; log 9). `rst`: reset (R230). A command word: its operation (R70), or no
effect if its `op` is reserved (R78; log 3). -/
def step (s : State) : Host.Outcome State Fault Refusal :=
  match s.inputs with
  | [] => .next (openTransaction [] s)
  | .rst :: rest => .next (applyReset rest s)
  | .cmd w :: rest =>
    match decode w with
    | .ok i => exec i (openTransaction rest s)
    | .error _ => .next (acceptReserved (openTransaction rest s))

/-- `s` with the word `w` of `nbits` bits presented as the next command, so that the very next step
performs it (log 6). -/
def State.withFetchWord (s : State) (nbits w : Nat) : State := presentCommand (tableWord nbits w) s

end Sys2Proof.Machine
end

