-- ==== Sys2Proof/Machine/Pseudo.lean ====
section
/-!
DEFINITION. Notation with no hardware counterpart (decision D30): the pseudo-instructions of
30_encoding.md R93 as lists of SAMPLE commands, and the textual form of R92.
-/
namespace Sys2Proof.Machine

/-- `PULSE t, w`: the line low for `w` ms from `t` (R93). -/
def pulse (t w : TsWord) : List Instr := [.sample false t, .sample true (t + w)]

/-- `BIT0 t` (R93). -/
def bit0 (t : TsWord) : List Instr := pulse t 100

/-- `BIT1 t` (R93). -/
def bit1 (t : TsWord) : List Instr := pulse t 200

/-- The pulse of second `k` of `MINUTE t0, f` (R93). -/
def minuteSecond (t0 : TsWord) (f : FrameWord) (k : Nat) : List Instr :=
  let t := t0 + BitVec.ofNat 32 (1000 * k)
  if f.getLsbD k then bit1 t else bit0 t

/-- `MINUTE t0, f`: the 59 pulses of one minute, nothing for second 59 (R93). -/
def minute (t0 : TsWord) (f : FrameWord) : List Instr :=
  (List.range Config.frameBits).flatMap (minuteSecond t0 f)

/-- A one-bit operand as the text writes it. -/
def bitText (b : Bool) : String := if b then "1" else "0"

/-- An operation as R92 writes it, operands in decimal; the micro-operations as traces write them. -/
def asmText : Instr → String
  | .sample level ts => "SAMPLE " ++ bitText level ++ ", " ++ toString ts.toNat
  | .fdec f => "FDEC " ++ toString f.toNat
  | .t2c t dst => "T2C " ++ toString t.toInt ++ ", " ++ bitText dst
  | .c2t r => "C2T " ++ String.intercalate ", " ([r.sec, r.min, r.hour, r.monthDay, r.month, r.year,
      r.weekday, r.yearDay].map (fun v => toString v.toInt) ++ [bitText r.isDst])
  | .appendBit b => "APPENDBIT " ++ bitText b
  | .conclude => "CONCLUDE"

end Sys2Proof.Machine
end

