-- ==== Sys2Proof/Safety.lean ====
section
/-!
DEFINITION. What claims are stated in terms of: runs, and the invariant of the decoder unit.
-/
namespace Sys2Proof.Machine

/-- A list of operations executed in order, stopping at the first that does not answer a next state. -/
def execAll : List Instr → State → Host.Outcome State Fault Refusal
  | [], s => .next s
  | i :: is, s =>
    match exec i s with
    | .next t => execAll is t
    | .fault r => .fault r
    | .refused r => .refused r

/-- `k` steps in a row, stopping at the first that does not answer a next state. -/
def runSteps : Nat → State → Host.Outcome State Fault Refusal
  | 0, s => .next s
  | k + 1, s =>
    match step s with
    | .next t => runSteps k t
    | .fault r => .fault r
    | .refused r => .refused r

/-- The host presents these operations, in order; one with no command word is not presented (R94). -/
def commandInputs (is : List Instr) : List HostInput :=
  is.filterMap fun i => (encode i).map HostInput.cmd

/-- The step answers a next state: the machine neither faults nor is refused. -/
def SafeStep (s : State) : Prop := ∃ t, step s = .next t

/-- 10_state.md R29 (a) and (b): the position is at most 59, and no bit is set at or above it. -/
abbrev BufferWithinPosition (s : State) : Prop :=
  s.pos.toNat ≤ 59 ∧ ∀ i : Fin 64, s.pos.toNat ≤ i.val → s.buf.getLsbD i.val = false

/-- 10_state.md R29 (c): each latch, once written, is the exclusive-or of its segment's value bits. -/
abbrev LatchesHoldSegments (s : State) : Prop :=
  (28 < s.pos.toNat → s.parMin = parityOf s.buf 21 7)
    ∧ (35 < s.pos.toNat → s.parHour = parityOf s.buf 29 6)
    ∧ (58 < s.pos.toNat → s.parDate = parityOf s.buf 36 22)

/-- Inside a segment the running parity is the exclusive-or of the segment's bits so far (R25, R124). It
is what makes R29 (c) inductive. -/
abbrev RunningParityHolds (s : State) : Prop :=
  (21 < s.pos.toNat → s.pos.toNat ≤ 28 → s.parRun = parityOf s.buf 21 (s.pos.toNat - 21))
    ∧ (29 < s.pos.toNat → s.pos.toNat ≤ 35 → s.parRun = parityOf s.buf 29 (s.pos.toNat - 29))
    ∧ (36 < s.pos.toNat → s.pos.toNat ≤ 58 → s.parRun = parityOf s.buf 36 (s.pos.toNat - 36))

/-- The invariant of the decoder unit: R29, and the running parity it rests on. -/
abbrev DecoderInv (s : State) : Prop :=
  BufferWithinPosition s ∧ LatchesHoldSegments s ∧ RunningParityHolds s

/-- The six registers of the bit-frame assembler are in the empty state CONCLUDE leaves (R127). -/
abbrev AssemblerEmpty (s : State) : Prop :=
  s.buf = 0 ∧ s.pos = 0 ∧ s.parRun = false ∧ s.parMin = false ∧ s.parHour = false
    ∧ s.parDate = false

/-- Two states that differ at most in buffer bit 0, in the running parity while no segment has opened
since (position at most 21), in the reset parameters and on the event port. -/
def SameButBitZero (t u : State) : Prop :=
  u.pos = t.pos ∧ u.prevLevel = t.prevLevel ∧ u.prevTs = t.prevTs ∧ u.parMin = t.parMin
    ∧ u.parHour = t.parHour ∧ u.parDate = t.parDate ∧ u.res = t.res ∧ u.inputs = t.inputs
    ∧ u.freeDraws = t.freeDraws
    ∧ (∀ i : Fin 64, i.val ≠ 0 → u.buf.getLsbD i.val = t.buf.getLsbD i.val)
    ∧ (21 < t.pos.toNat → u.parRun = t.parRun)

/-- Month lengths (42_calendar_converter.md R162): 31, 28 or 29, 31, 30, 31, 30, 31, 31, 30, 31, 30, 31
for months 0 to 11; 0 for any other number. -/
def monthLength (Y m : Int) : Int :=
  if m = 1 then 28 + leapDay Y
  else if m = 3 ∨ m = 5 ∨ m = 8 ∨ m = 10 then 30
  else if 0 ≤ m ∧ m ≤ 11 then 31
  else 0

/-- A record whose time fields, month and day are in range for its own year (R192); `weekday`,
`yearDay` and `isDst` are anything. -/
def InRange (r : CalendarRecord) : Prop :=
  (0 ≤ sext32 r.sec ∧ sext32 r.sec ≤ 59) ∧ (0 ≤ sext32 r.min ∧ sext32 r.min ≤ 59)
    ∧ (0 ≤ sext32 r.hour ∧ sext32 r.hour ≤ 23) ∧ (0 ≤ sext32 r.month ∧ sext32 r.month ≤ 11)
    ∧ 1 ≤ sext32 r.monthDay
    ∧ sext32 r.monthDay ≤ monthLength (Config.baseYear + sext32 r.year) (sext32 r.month)

end Sys2Proof.Machine
end

