-- ==== Sys2Proof/Certificates/Slice0/Obligations.lean ====
section
/-!
DEFINITION. The statements for the provers. Each docstring names the rules of spec/ it formalises.
-/
open Sys2Proof Sys2Proof.Machine

/-! ## Reset, waiting, one step -/

/-- 10_state.md R36: reset leaves the six assembler registers 0 and the previous sample at the open
parameters, for every value of those; with the spec's defaults both are 0. -/
def Obligations.ResetClearsEveryRegister : Prop :=
  (∀ p : Config.ResetParams, let s := State.resetTo p
    s.buf = 0 ∧ s.pos = 0 ∧ s.parRun = false ∧ s.parMin = false ∧ s.parHour = false
      ∧ s.parDate = false ∧ s.prevLevel = p.prevLevel ∧ s.prevTs = p.prevTs)
    ∧ State.reset = State.resetTo { prevLevel := false, prevTs := 0 }

/-- 70_reset_and_hazards.md R230 on the transaction level: `rst` takes any state to the reset state,
no port is valid, and only the host's list and the model's own fields are kept (log 8). -/
def Obligations.ResetIsATransitionFromAnyState : Prop :=
  ∀ (s : State) (rest : List HostInput), s.inputs = .rst :: rest →
    step s = .next
      { s with
        buf := 0, pos := 0, parRun := false, parMin := false, parHour := false, parDate := false
        prevLevel := s.resetParams.prevLevel, prevTs := s.resetParams.prevTs
        res := none, frm := none, inputs := rest }

/-- 60_exceptions.md R215, R216: with no command no register changes; no port is valid (log 9). -/
def Obligations.WaitingChangesNoRegister : Prop :=
  ∀ s : State, s.inputs = [] → step s = .next { s with res := none, frm := none }

/-- 30_encoding.md R70: the operation performed is the one the command word names, and the transaction
begins with both output ports not valid (log 7) and the word taken from the host's list (log 6). -/
def Obligations.StepRunsTheDecodedCommand : Prop :=
  ∀ (s : State) (w : CommandWord) (rest : List HostInput) (i : Instr),
    s.inputs = .cmd w :: rest → decode w = .ok i →
      step s = exec i { s with inputs := rest, res := none, frm := none }

/-- The model's own convention for placing a word (log 6, log 19): the word `w` of `nbits` bits, placed
next, is what the very next step performs, before everything the host was going to present. -/
def Obligations.PlacedWordIsTheNextCommand : Prop :=
  ∀ (s : State) (nbits w : Nat) (i : Instr), decodeTableWord nbits w = some i →
    step (s.withFetchWord nbits w) = exec i { s with res := none, frm := none }

/-- 30_encoding.md R78: a reserved `op` changes no state, gives no result and no event; the decoder
rejects the word by name. That the step takes this effect rather than refusing, as R78's advice to a
model has it, is the model's choice (log 3). -/
def Obligations.ReservedOpHasNoEffect : Prop :=
  ∀ (s : State) (w : CommandWord) (rest : List HostInput),
    w.toNat % 8 = 0 ∨ w.toNat % 8 = 5 ∨ w.toNat % 8 = 6 ∨ w.toNat % 8 = 7 →
      decode w = .error (.reservedOp (BitVec.ofNat 3 w.toNat))
        ∧ step { s with inputs := .cmd w :: rest } =
            .next { s with inputs := rest, res := none, frm := none }

/-- 60_exceptions.md R205: no fault exists, and every operation answers a next state. That every STEP does
rests also on two choices of the model's: waiting with nothing presented is a step (log 9), and a
reserved word takes R78's no-effect where R78 and U7 advise a model to refuse it (log 3). -/
def Obligations.EveryOperationAndStepCompletes : Prop :=
  (Fault → False) ∧ (∀ (i : Instr) (s : State), ∃ t, exec i s = .next t) ∧ ∀ s : State, SafeStep s

/-! ## Encoding -/

/-- 30_encoding.md R72: which `op` selects which operation, what is reserved, and that no word decodes
to a micro-operation. -/
def Obligations.OpCodesSelectTheOperation : Prop :=
  ∀ w : CommandWord,
    (w.toNat % 8 = 1 ↔ ∃ level ts, decode w = .ok (.sample level ts))
      ∧ (w.toNat % 8 = 2 ↔ ∃ f, decode w = .ok (.fdec f))
      ∧ (w.toNat % 8 = 3 ↔ ∃ t dst, decode w = .ok (.t2c t dst))
      ∧ (w.toNat % 8 = 4 ↔ ∃ r, decode w = .ok (.c2t r))
      ∧ (w.toNat % 8 = 0 ∨ w.toNat % 8 = 5 ∨ w.toNat % 8 = 6 ∨ w.toNat % 8 = 7
          ↔ ∃ op, decode w = .error (.reservedOp op))
      ∧ (∀ b, decode w ≠ .ok (.appendBit b)) ∧ decode w ≠ .ok .conclude

/-- 30_encoding.md R73 to R76: where each operand lies, by division and remainder of the word as an
integer, and the word of each format as an integer when the ignored bits are 0. -/
def Obligations.OperandFieldPositions : Prop :=
  (∀ w : CommandWord,
    (w.toNat % 8 = 1 → decode w =
        .ok (.sample (decide (w.toNat / 8 % 2 = 1)) (BitVec.ofNat 32 (w.toNat / 16))))
      ∧ (w.toNat % 8 = 2 → decode w = .ok (.fdec (BitVec.ofNat 64 (w.toNat / 8))))
      ∧ (w.toNat % 8 = 3 → decode w =
          .ok (.t2c (BitVec.ofNat 64 (w.toNat / 16)) (decide (w.toNat / 8 % 2 = 1))))
      ∧ (w.toNat % 8 = 4 → decode w =
          .ok (.c2t
            { sec := BitVec.ofNat 32 (w.toNat / 2 ^ 3)
              min := BitVec.ofNat 32 (w.toNat / 2 ^ 35)
              hour := BitVec.ofNat 32 (w.toNat / 2 ^ 67)
              monthDay := BitVec.ofNat 32 (w.toNat / 2 ^ 99)
              month := BitVec.ofNat 32 (w.toNat / 2 ^ 131)
              year := BitVec.ofNat 32 (w.toNat / 2 ^ 163)
              weekday := BitVec.ofNat 32 (w.toNat / 2 ^ 195)
              yearDay := BitVec.ofNat 32 (w.toNat / 2 ^ 227)
              isDst := decide (w.toNat / 2 ^ 259 = 1) })))
    ∧ (∀ level ts, (encode (.sample level ts)).map BitVec.toNat =
        some (1 + 8 * level.toNat + 16 * ts.toNat))
    ∧ (∀ f, (encode (.fdec f)).map BitVec.toNat = some (2 + 8 * f.toNat))
    ∧ (∀ t dst, (encode (.t2c t dst)).map BitVec.toNat = some (3 + 8 * dst.toNat + 16 * t.toNat))
    ∧ (∀ r, (encode (.c2t r)).map BitVec.toNat = some (4 + 8 * (recordImage r).toNat))

/-- 30_encoding.md R71 to R76, R94: decoding the word of an issuable operation gives it back, with
every operand; the micro-operations have no word. -/
def Obligations.DecodeOfEncodeIsTheOperation : Prop :=
  ∀ i : Instr,
    (i.wellFormed = true → ∃ w, encode i = some w ∧ decode w = .ok i)
      ∧ (i.wellFormed = false → encode i = none)

/-- 30_encoding.md R73 to R77: encoding what a word decodes to gives back the word with its ignored
bits cleared, so no operand bit is dropped. -/
def Obligations.EncodeOfDecodeClearsOnlyIgnoredBits : Prop :=
  ∀ w : CommandWord,
    (∀ level ts, decode w = .ok (.sample level ts) →
        encode (.sample level ts) = some (BitVec.ofNat 260 (w.toNat % 2 ^ 36)))
      ∧ (∀ f, decode w = .ok (.fdec f) →
          encode (.fdec f) = some (BitVec.ofNat 260 (w.toNat % 2 ^ 67)))
      ∧ (∀ t dst, decode w = .ok (.t2c t dst) →
          encode (.t2c t dst) = some (BitVec.ofNat 260 (w.toNat % 2 ^ 68)))
      ∧ (∀ r, decode w = .ok (.c2t r) → encode (.c2t r) = some w)

/-- 30_encoding.md R77: ignored payload bits, the record fields C2T does not use, and the frame bits
FDEC does not use have no effect on the operation, the result or the state. For a month outside 0..11,
whose result R189 leaves open, the clause about C2T is the model's deduction (log 16). -/
def Obligations.IgnoredBitsHaveNoEffect : Prop :=
  (∀ (s : State) (rest : List HostInput) (v w : CommandWord),
    (w.toNat % 8 = 1 ∧ v.toNat % 2 ^ 36 = w.toNat % 2 ^ 36)
      ∨ (w.toNat % 8 = 2 ∧ v.toNat % 2 ^ 67 = w.toNat % 2 ^ 67)
      ∨ (w.toNat % 8 = 3 ∧ v.toNat % 2 ^ 68 = w.toNat % 2 ^ 68) →
    step { s with inputs := .cmd v :: rest } = step { s with inputs := .cmd w :: rest })
    ∧ (∀ (s : State) (r : CalendarRecord) (wd yd : FieldWord) (dst : Bool),
        exec (.c2t { r with weekday := wd, yearDay := yd, isDst := dst }) s = exec (.c2t r) s)
    ∧ (∀ (s : State) (f g : FrameWord),
        (∀ i : Fin 64, i.val = 17 ∨ (21 ≤ i.val ∧ i.val ≤ 27) ∨ (29 ≤ i.val ∧ i.val ≤ 34)
            ∨ (36 ≤ i.val ∧ i.val ≤ 57) → f.getLsbD i.val = g.getLsbD i.val) →
          exec (.fdec f) s = exec (.fdec g) s)

/-- 95_test_vectors.md: a few command words the spec writes out, one or more for each format. -/
def Obligations.SpecCommandWordsDecode : Prop :=
  decode 0x4919 = .ok (.sample true 1169)
    ∧ decode 0xFFFFFFFF1 = .ok (.sample false 4294967295)
    ∧ decode 0x4A2F1D530A00002 = .ok (.fdec 0x00945E3AA6140000)
    ∧ decode 0xFFFFFFFFFFFFFFFF3 = .ok (.t2c (BitVec.ofInt 64 (-1)) false)
    ∧ decode 0xB = .ok (.t2c 0 true)
    ∧ decode 0x22800000058000000F8000000B8000001D8000001DC =
        .ok (.c2t { sec := 59, min := 59, hour := 23, monthDay := 31, month := 11, year := 69,
                    weekday := 0, yearDay := 0, isDst := false })
    ∧ decode 0xE = .error (.reservedOp 6)

/-- 30_encoding.md R93: the pseudo-instructions as SAMPLE commands. -/
def Obligations.MinuteExpandsToItsPulses : Prop :=
  (∀ t w : TsWord, pulse t w = [.sample false t, .sample true (t + w)])
    ∧ (∀ t : TsWord, bit0 t = pulse t 100 ∧ bit1 t = pulse t 200)
    ∧ ∀ (t0 : TsWord) (f : FrameWord),
        (minute t0 f).length = 118
          ∧ ∀ k : Nat, k < 59 →
              (minute t0 f)[2 * k]? = some (.sample false (t0 + BitVec.ofNat 32 (1000 * k)))
                ∧ (minute t0 f)[2 * k + 1]? =
                    some (.sample true (t0 + BitVec.ofNat 32 (1000 * k)
                      + (if f.getLsbD k then 200 else 100)))

/-! ## SAMPLE -/

/-- 40_pulse_decoder.md R115: a same-level repeat changes nothing and emits nothing. -/
def Obligations.SameLevelRepeatIsIgnored : Prop :=
  ∀ (s : State) (ts : TsWord), exec (.sample s.prevLevel ts) s = .next s

/-- 40_pulse_decoder.md R111: elapsed time is the difference modulo 2^32, so it is the true time when
that is below 2^32 and the true time reduced otherwise. -/
def Obligations.ElapsedTimeIsModular : Prop :=
  (∀ prev ts : TsWord, elapsedMs prev ts = (ts.toNat + 2 ^ 32 - prev.toNat) % 2 ^ 32)
    ∧ ∀ (prev : TsWord) (d : Nat), elapsedMs prev (prev + BitVec.ofNat 32 d) = d % 2 ^ 32

/-- 40_pulse_decoder.md R112, with R125 and R128 written out: what a falling edge does, below the sync
threshold and from it on; everything not named is unchanged. -/
def Obligations.FallingEdgeConcludesFrom1200Ms : Prop :=
  ∀ (s : State) (ts : TsWord), s.prevLevel = true →
    ((ts.toNat + 2 ^ 32 - s.prevTs.toNat) % 2 ^ 32 < 1200 →
        exec (.sample false ts) s = .next { s with prevLevel := false, prevTs := ts })
      ∧ (1200 ≤ (ts.toNat + 2 ^ 32 - s.prevTs.toNat) % 2 ^ 32 →
          exec (.sample false ts) s = .next
            { s with
              buf := 0, pos := 0, parRun := false, parMin := false, parHour := false
              parDate := false, prevLevel := false, prevTs := ts
              frm := if s.pos = 59 ∧ s.parMin = s.buf.getLsbD 28 ∧ s.parHour = s.buf.getLsbD 35
                        ∧ s.parDate = s.buf.getLsbD 58
                     then some { frame := s.buf, ts := ts } else s.frm })

/-- 40_pulse_decoder.md R113: a rising edge is APPENDBIT of 1 from 170 ms on and of 0 below, whatever
the low phase's length, and then the sample is recorded. -/
def Obligations.RisingEdgeAppendsTheTimedBit : Prop :=
  ∀ (s : State) (ts : TsWord), s.prevLevel = false →
    ∃ t, exec (.appendBit (decide (170 ≤ (ts.toNat + 2 ^ 32 - s.prevTs.toNat) % 2 ^ 32))) s = .next t
      ∧ exec (.sample true ts) s = .next { t with prevLevel := true, prevTs := ts }

/-- 40_pulse_decoder.md R114: every accepted sample becomes the previous sample. -/
def Obligations.AcceptedSampleIsRecorded : Prop :=
  ∀ (s : State) (level : Bool) (ts : TsWord), level ≠ s.prevLevel →
    ∃ t, exec (.sample level ts) s = .next t ∧ t.prevLevel = level ∧ t.prevTs = ts

/-- 40_pulse_decoder.md R117: the two thresholds at their boundaries. -/
def Obligations.ThresholdBoundaries : Prop :=
  (∀ s : State, s.prevLevel = false →
    exec (.sample true (s.prevTs + 169)) s =
        .next (recordSample true (s.prevTs + 169) (appendBit false s))
      ∧ exec (.sample true (s.prevTs + 170)) s =
          .next (recordSample true (s.prevTs + 170) (appendBit true s))
      ∧ exec (.sample true s.prevTs) s = .next (recordSample true s.prevTs (appendBit false s)))
    ∧ ∀ s : State, s.prevLevel = true →
        exec (.sample false (s.prevTs + 1199)) s = .next (recordSample false (s.prevTs + 1199) s)
          ∧ exec (.sample false (s.prevTs + 1200)) s =
              .next (recordSample false (s.prevTs + 1200) (minuteBoundary (s.prevTs + 1200) s))
          ∧ exec (.sample false (s.prevTs - 1)) s =
              .next (recordSample false (s.prevTs - 1) (minuteBoundary (s.prevTs - 1) s))

/-- 40_pulse_decoder.md R116, the frame of SAMPLE: no result word, the host's list and the model's own
fields untouched; a rising edge emits nothing; an ignored or short falling sample leaves the whole
assembler alone. -/
def Obligations.SampleFrame : Prop :=
  ∀ (s t : State) (level : Bool) (ts : TsWord), exec (.sample level ts) s = .next t →
    t.res = s.res ∧ t.inputs = s.inputs ∧ t.resetParams = s.resetParams
      ∧ t.freeDraws = s.freeDraws ∧ (level = true → t.frm = s.frm)
      ∧ (level = false → s.prevLevel = true → (ts - s.prevTs).toNat < 1200 →
          t = { s with prevLevel := false, prevTs := ts })

/-- 60_exceptions.md R206: a step leaves a FRAME event on the port exactly when it performed a falling
edge 1200 ms or more after the previous sample, with 59 bits and all three parities right; the event
is the buffer and that sample's timestamp. -/
def Obligations.FrameEventExactlyAtASuccessfulMinute : Prop :=
  ∀ (s t : State) (e : FrameEvent), step s = .next t →
    (t.frm = some e ↔ ∃ w rest ts,
      s.inputs = .cmd w :: rest ∧ decode w = .ok (.sample false ts) ∧ s.prevLevel = true
        ∧ 1200 ≤ (ts.toNat + 2 ^ 32 - s.prevTs.toNat) % 2 ^ 32
        ∧ s.pos = 59 ∧ s.parMin = s.buf.getLsbD 28 ∧ s.parHour = s.buf.getLsbD 35
        ∧ s.parDate = s.buf.getLsbD 58 ∧ e = { frame := s.buf, ts := ts })

/-! ## APPENDBIT and CONCLUDE -/

/-- 40_pulse_decoder.md R120: below position 59 APPENDBIT stores its bit at the position and at no other
index, clears, latches and folds the parity in that order, advances, and writes nothing else (R123); at
position 59 it returns at once. -/
def Obligations.AppendBitStoresLatchesAndFolds : Prop :=
  ∀ (s : State) (b : Bool),
    (s.pos.toNat < 59 →
      let run := if s.pos = 21 ∨ s.pos = 29 ∨ s.pos = 36 then false else s.parRun
      ∃ buf' : FrameWord,
        (∀ i : Fin 64,
            buf'.getLsbD i.val = if i.val = s.pos.toNat then b else s.buf.getLsbD i.val)
          ∧ exec (.appendBit b) s = .next
              { s with
                buf := buf'
                pos := BitVec.ofNat 6 (s.pos.toNat + 1)
                parMin := if s.pos = 28 then run else s.parMin
                parHour := if s.pos = 35 then run else s.parHour
                parDate := if s.pos = 58 then run else s.parDate
                parRun := run ^^ b })
      ∧ (s.pos = 59 → exec (.appendBit b) s = .next s)

/-- 40_pulse_decoder.md R121: at position 59 APPENDBIT changes nothing, and the rising edge that
invoked it still records its sample. -/
def Obligations.OverflowGuard : Prop :=
  ∀ s : State, s.pos = 59 →
    (∀ b, exec (.appendBit b) s = .next s)
      ∧ ∀ ts, s.prevLevel = false →
          exec (.sample true ts) s = .next { s with prevLevel := true, prevTs := ts }

/-- 40_pulse_decoder.md R125: the pair CONCLUDE returns, read before the clear, and the state it leaves
(R127, R132), `PREV_LEVEL` and `PREV_TS` included. -/
def Obligations.ConcludeReturnsThenClears : Prop :=
  ∀ s : State,
    (conclude s).1 =
        (decide (s.pos = 59 ∧ s.parMin = s.buf.getLsbD 28 ∧ s.parHour = s.buf.getLsbD 35
          ∧ s.parDate = s.buf.getLsbD 58), s.buf)
      ∧ exec .conclude s = .next
          { s with buf := 0, pos := 0, parRun := false, parMin := false, parHour := false
                   parDate := false }
      ∧ (conclude s).2 =
          { s with buf := 0, pos := 0, parRun := false, parMin := false, parHour := false
                   parDate := false }

/-- 40_pulse_decoder.md R126: under the invariant, with 59 bits, CONCLUDE succeeds exactly when each of
the ranges 28:21, 35:29 and 58:36 of the buffer holds an even number of ones. -/
def Obligations.ConcludeSucceedsOnEvenParity : Prop :=
  ∀ s : State, DecoderInv s → s.pos = 59 →
    ((conclude s).1.1 = true ↔
      parityOf s.buf 21 8 = false ∧ parityOf s.buf 29 7 = false ∧ parityOf s.buf 36 23 = false)

/-- 40_pulse_decoder.md R126, the parity property: between two reachable full buffers that differ in
one value bit of one segment, success turns into failure; if that segment's parity bit differs as
well, success stays. -/
def Obligations.SingleBitFlipFailsAndParityFlipRepairs : Prop :=
  ∀ (s t : State) (i p : Nat), DecoderInv s → DecoderInv t → s.pos = 59 → t.pos = 59 →
    (21 ≤ i ∧ i ≤ 27 ∧ p = 28) ∨ (29 ≤ i ∧ i ≤ 34 ∧ p = 35) ∨ (36 ≤ i ∧ i ≤ 57 ∧ p = 58) →
    (conclude s).1.1 = true →
      (t.buf = s.buf ^^^ (1#64 <<< i) → (conclude t).1.1 = false)
        ∧ (t.buf = s.buf ^^^ (1#64 <<< i) ^^^ (1#64 <<< p) → (conclude t).1.1 = true)

/-- 40_pulse_decoder.md R129, R126, R128: what a delivered frame is guaranteed to be. -/
def Obligations.DeliveredFrameIsClean : Prop :=
  ∀ (s t : State) (e : FrameEvent), DecoderInv s → step s = .next t → t.frm = some e →
    e.frame.toNat < 2 ^ 59 ∧ framePasses e.frame = true ∧ AssemblerEmpty t ∧ e.ts = t.prevTs

/-- 10_state.md R29: the invariant holds after reset, whatever the open parameters. -/
def Obligations.InvariantHoldsAtReset : Prop :=
  ∀ p : Config.ResetParams, DecoderInv (State.resetTo p)

/-- 10_state.md R29: every step and every operation keeps the invariant, R29's three clauses together
with the running parity of the open segment (R25, R124). -/
def Obligations.InvariantKeptByEveryStep : Prop :=
  (∀ s t : State, DecoderInv s → step s = .next t → DecoderInv t)
    ∧ ∀ (i : Instr) (s t : State), DecoderInv s → exec i s = .next t → DecoderInv t

/-- 40_pulse_decoder.md R120 to R126: APPENDBIT of any list of bits from the empty assembler keeps the
first 59 in order, drops the rest, touches nothing outside the assembler, and CONCLUDE then succeeds
exactly when there were 59 or more and the three segments are even. -/
def Obligations.AssemblerKeepsTheFirst59Bits : Prop :=
  ∀ (s : State) (bits : List Bool), AssemblerEmpty s →
    ∃ t, execAll (bits.map Instr.appendBit) s = .next t
      ∧ t.pos.toNat = min 59 bits.length
      ∧ (∀ i : Fin 64,
          t.buf.getLsbD i.val = (decide (i.val < 59) && bits.getD i.val false))
      ∧ ((conclude t).1.1 = true ↔ 59 ≤ bits.length ∧ framePasses t.buf = true)
      ∧ t.prevLevel = s.prevLevel ∧ t.prevTs = s.prevTs ∧ t.res = s.res ∧ t.frm = s.frm
      ∧ t.inputs = s.inputs ∧ t.resetParams = s.resetParams ∧ t.freeDraws = s.freeDraws

/-- 60_exceptions.md R206, 40_pulse_decoder.md R128 over a whole minute: for every frame value of 59
bits and every start time, the pulses of the minute (R93) and the falling edge after the silent second
deliver exactly that frame with that edge's timestamp if its three parities are even, and nothing if
not; either way the assembler is empty again. The minute may start with an empty assembler, the line
high or its opening falling edge already taken (as in programs P1 and P2), or, whatever the assembler
holds, with an opening falling edge that is itself a minute boundary (R215). -/
def Obligations.EveryMinuteIsDeliveredOrDropped : Prop :=
  ∀ (s : State) (t0 : TsWord) (f : FrameWord) (rest : List HostInput),
    (AssemblerEmpty s ∧ (s.prevLevel = true ∨ s.prevTs = t0))
      ∨ (s.prevLevel = true ∧ 1200 ≤ (t0.toNat + 2 ^ 32 - s.prevTs.toNat) % 2 ^ 32) →
    f.toNat < 2 ^ 59 →
    s.inputs = commandInputs (minute t0 f ++ [.sample false (t0 + 60000)]) ++ rest →
      ∃ t, runSteps 119 s = .next t ∧ t.inputs = rest ∧ AssemblerEmpty t ∧ t.prevLevel = false
        ∧ t.prevTs = t0 + 60000
        ∧ t.frm = if framePasses f then some { frame := f, ts := t0 + 60000 } else none

/-- 70_reset_and_hazards.md R234: the first accepted sample after reset is the last one handled
differently for different open parameters: a rising edge leaves at most buffer bit 0 and the running
parity different, a falling edge nothing. -/
def Obligations.ResetParametersAffectOnlyTheFirstSample : Prop :=
  ∀ (p q : Config.ResetParams) (level : Bool) (ts : TsWord),
    level ≠ p.prevLevel → level ≠ q.prevLevel →
    ∃ t u, exec (.sample level ts) (State.resetTo p) = .next t
      ∧ exec (.sample level ts) (State.resetTo q) = .next u ∧ SameButBitZero t u
      ∧ t.frm = none ∧ u.frm = none ∧ (level = false → u = { t with resetParams := q })

/-- 70_reset_and_hazards.md R234: a difference in buffer bit 0 never spreads: SAMPLE keeps the two
states the same but for it, the frames they deliver differ at most in bit 0, and a minute boundary
removes the difference. -/
def Obligations.BitZeroDifferenceNeverSpreads : Prop :=
  ∀ (t u : State) (level : Bool) (ts : TsWord), SameButBitZero t u → t.frm = none → u.frm = none →
    ∃ t' u', exec (.sample level ts) t = .next t' ∧ exec (.sample level ts) u = .next u'
      ∧ SameButBitZero t' u'
      ∧ (t'.frm = none ↔ u'.frm = none)
      ∧ (∀ a b, t'.frm = some a → u'.frm = some b →
          a.ts = b.ts ∧ ∀ i : Fin 64, i.val ≠ 0 → a.frame.getLsbD i.val = b.frame.getLsbD i.val)
      ∧ (t.prevLevel = true → level = false →
          1200 ≤ (ts.toNat + 2 ^ 32 - t.prevTs.toNat) % 2 ^ 32 →
          u'.buf = t'.buf ∧ u'.parRun = t'.parRun)

/-! ## The converter unit and the decoder unit -/

/-- 10_state.md R20, 41_field_decoder.md R151, 42_calendar_converter.md R181, R191: a converter command
writes the result port and no register, emits no event; only C2T may advance the model's own draw
counter (log 4). -/
def Obligations.ConvertersWriteOnlyTheResultPort : Prop :=
  ∀ s : State,
    (∀ f, ∃ x, exec (.fdec f) s = .next { s with res := some x })
      ∧ (∀ t dst, ∃ x, exec (.t2c t dst) s = .next { s with res := some x })
      ∧ ∀ r, ∃ x n, exec (.c2t r) s = .next { s with res := some x, freeDraws := n }

/-- 20_memory.md R61: a converter command and a SAMPLE command can be exchanged, and the result does not
depend on the decoder unit's state. For C2T with a month outside 0..11 that is the free value's form in
the model (log 4). -/
def Obligations.ConvertersCommuteWithSample : Prop :=
  ∀ (s : State) (i : Instr) (level : Bool) (ts : TsWord),
    (∃ f, i = .fdec f) ∨ (∃ t dst, i = .t2c t dst) ∨ (∃ r, i = .c2t r) →
    ∃ a b u, exec i s = .next a ∧ exec (.sample level ts) s = .next b
      ∧ exec (.sample level ts) a = .next u ∧ exec i b = .next u ∧ u.res = a.res ∧ u.frm = b.frm

/-! ## FDEC -/

/-- 41_field_decoder.md R141: the packed-decimal decode on every two-digit code, decimal or not. -/
def Obligations.PackedDecimalDecode : Prop :=
  (∀ a b : Nat, b ≤ 15 → bcd (16 * a + b) = 10 * a + b)
    ∧ bcd 0x30 = 30 ∧ bcd 0x23 = 23 ∧ bcd 0x19 = 19 ∧ bcd 0x1F = 25

/-- 41_field_decoder.md R140: the record FDEC delivers, field by field, by division and remainder of the
frame as an integer; no register is read or written. -/
def Obligations.FdecDeliversTheDecodedRecord : Prop :=
  ∀ (f : FrameWord) (s : State),
    let d : Nat → Nat := fun v => v - v / 16 * 6
    exec (.fdec f) s = .next
      { s with
        res := some (recordImage
          { sec := 0
            min := BitVec.ofNat 32 (d (f.toNat / 2 ^ 21 % 128))
            hour := BitVec.ofNat 32 (d (f.toNat / 2 ^ 29 % 64))
            monthDay := BitVec.ofNat 32 (d (f.toNat / 2 ^ 36 % 64))
            month := BitVec.ofNat 32 (d (f.toNat / 2 ^ 45 % 32)) - 1
            year := BitVec.ofNat 32 (100 + d (f.toNat / 2 ^ 50 % 256))
            weekday := BitVec.ofNat 32 (d (f.toNat / 2 ^ 42 % 8) % 7)
            yearDay := 0xFFFFFFFF
            isDst := decide (f.toNat / 2 ^ 17 % 2 = 1) }) }

/-- 41_field_decoder.md R142 to R147: the ranges of the decoded fields, over every frame value. -/
def Obligations.FdecFieldRanges : Prop :=
  ∀ f : FrameWord,
    (0 ≤ sext32 (recordOfFrame f).min ∧ sext32 (recordOfFrame f).min ≤ 85)
      ∧ (0 ≤ sext32 (recordOfFrame f).hour ∧ sext32 (recordOfFrame f).hour ≤ 45)
      ∧ (0 ≤ sext32 (recordOfFrame f).monthDay ∧ sext32 (recordOfFrame f).monthDay ≤ 45)
      ∧ (0 ≤ sext32 (recordOfFrame f).weekday ∧ sext32 (recordOfFrame f).weekday ≤ 6)
      ∧ (-1 ≤ sext32 (recordOfFrame f).month ∧ sext32 (recordOfFrame f).month ≤ 24)
      ∧ (100 ≤ sext32 (recordOfFrame f).year ∧ sext32 (recordOfFrame f).year ≤ 265)
      ∧ sext32 (recordOfFrame f).yearDay = -1 ∧ sext32 (recordOfFrame f).sec = 0

/-- 41_field_decoder.md R152: the table's out-of-range rows, as whole frames. -/
def Obligations.FdecCornerRecords : Prop :=
  recordOfFrame 0 =
      { sec := 0, min := 0, hour := 0, monthDay := 0, month := -1, year := 100, weekday := 0
        yearDay := -1, isDst := false }
    ∧ recordOfFrame 0xFFFFFFFFFFFFFFFF =
        { sec := 0, min := 85, hour := 45, monthDay := 45, month := 24, year := 265, weekday := 0
          yearDay := -1, isDst := true }
    ∧ (recordOfFrame (0x0A#64 <<< 21)).min = 10 ∧ (recordOfFrame (0x10#64 <<< 21)).min = 10

/-! ## T2C -/

/-- 42_calendar_converter.md R172, R173, R181: time of day, weekday and flag of the record T2C
delivers, for every timestamp. -/
def Obligations.T2cClockAndWeekday : Prop :=
  ∀ (t : TimeWord) (dst : Bool) (s : State),
    ∃ r, exec (.t2c t dst) s = .next { s with res := some (recordImage r) }
      ∧ sext32 r.hour = t.toInt % 86400 / 3600
      ∧ sext32 r.min = t.toInt % 86400 % 3600 / 60
      ∧ sext32 r.sec = t.toInt % 86400 % 60
      ∧ sext32 r.weekday = (t.toInt / 86400 + 4) % 7
      ∧ r.isDst = dst

/-- 42_calendar_converter.md R170 against the definition of R163: for every timestamp T2C delivers the
one date and time whose seconds from the epoch are the operand, with the day of the year counted from
1 January (R180), the weekday (R173) and the year narrowed to 32 bits (R179; outside R179's range that
narrowing is decision D21's, log 5). -/
def Obligations.T2cDeliversTheCalendarDate : Prop :=
  ∀ (t : TimeWord) (dst : Bool) (s : State),
    ∃ Y m d h mi sc c : Int,
      exec (.t2c t dst) s = .next
          { s with
            res := some (recordImage
              { sec := BitVec.ofInt 32 sc, min := BitVec.ofInt 32 mi, hour := BitVec.ofInt 32 h
                monthDay := BitVec.ofInt 32 d, month := BitVec.ofInt 32 m
                year := BitVec.ofInt 32 (Y - 1900)
                weekday := BitVec.ofInt 32 ((t.toInt / 86400 + 4) % 7)
                yearDay := BitVec.ofInt 32 (c + d - 1), isDst := dst }) }
        ∧ (0 ≤ sc ∧ sc ≤ 59) ∧ (0 ≤ mi ∧ mi ≤ 59) ∧ (0 ≤ h ∧ h ≤ 23) ∧ (0 ≤ m ∧ m ≤ 11)
        ∧ (1 ≤ d ∧ d ≤ monthLength Y m)
        ∧ cum Y m = some c
        ∧ t.toInt = ((Y - 1970) * 365 + leapCount Y + c + (d - 1)) * 86400 + h * 3600 + mi * 60 + sc

/-- 42_calendar_converter.md R179: the year fits its 32-bit field exactly in the stated range of
timestamps, and there the field is the year minus 1900; outside it the field is the year minus 1900
modulo 2^32, as decision D21 has it (log 5). -/
def Obligations.T2cYearFieldExactRange : Prop :=
  ∀ (t : TimeWord) (dst : Bool),
    let Y := (civilOfDays (t.toInt / 86400)).year
    ((-2147483648 ≤ Y - 1900 ∧ Y - 1900 ≤ 2147483647) ↔
        (-67768040609740800 ≤ t.toInt ∧ t.toInt ≤ 67768036191676799))
      ∧ (-67768040609740800 ≤ t.toInt → t.toInt ≤ 67768036191676799 →
          sext32 (recordOfTimestamp t.toInt dst).year = Y - 1900)
      ∧ (recordOfTimestamp t.toInt dst).year = BitVec.ofInt 32 (Y - 1900)

/-- 42_calendar_converter.md R175 to R178, R181: the ranges of T2C's intermediate values for every
64-bit operand; so none of them leaves 64 bits. -/
def Obligations.T2cIntermediateRanges : Prop :=
  ∀ t : TimeWord,
    let days := t.toInt / 86400
    let z := days + 719468
    let era := z / 146097
    let doe := z - era * 146097
    let yoe := yearOfEra doe
    let doy := marchDay doe yoe
    let mp := marchMonth doy
    (-110000000000000 < days ∧ days < 110000000000000)
      ∧ (-740000000 < era ∧ era < 740000000)
      ∧ (-300000000000 < (civilOfDays days).year ∧ (civilOfDays days).year < 300000000000)
      ∧ (0 ≤ doe ∧ doe ≤ 146096) ∧ (0 ≤ yoe ∧ yoe ≤ 399) ∧ (0 ≤ doy ∧ doy ≤ 365)
      ∧ (0 ≤ mp ∧ mp ≤ 11) ∧ (1 ≤ dayOfMonth doy mp ∧ dayOfMonth doy mp ≤ 31)

/-! ## C2T -/

/-- 42_calendar_converter.md R182: the timestamp C2T delivers for a month in 0..11, with every other
field any 32-bit value; no register is written. -/
def Obligations.C2tDeliversTheFoldedSeconds : Prop :=
  ∀ (r : CalendarRecord) (s : State), 0 ≤ r.month.toInt → r.month.toInt ≤ 11 →
    let Y := 1900 + r.year.toInt
    let table : List Int :=
      if (Y % 4 = 0 ∧ Y % 100 ≠ 0) ∨ Y % 400 = 0
      then [0, 31, 60, 91, 121, 152, 182, 213, 244, 274, 305, 335]
      else [0, 31, 59, 90, 120, 151, 181, 212, 243, 273, 304, 334]
    let L := (Y - 1969) / 4 - (Y - 1901) / 100 + (Y - 1601) / 400
    let yday := table.getD r.month.toNat 0 + r.monthDay.toInt - 1
    let T := ((Y - 1970) * 365 + L + yday) * 86400 + r.hour.toInt * 3600 + r.min.toInt * 60
      + r.sec.toInt
    exec (.c2t r) s = .next { s with res := some (BitVec.ofNat 257 (T % 2 ^ 64).toNat) }

/-- 42_calendar_converter.md R183: weekday, yearDay and isDst of the operand have no effect at all. For a
month outside 0..11, whose result R189 leaves open, that is the model's deduction (log 16). -/
def Obligations.C2tIgnoresWeekdayYearDayAndFlag : Prop :=
  ∀ (s : State) (r q : CalendarRecord),
    r.sec = q.sec → r.min = q.min → r.hour = q.hour → r.monthDay = q.monthDay →
    r.month = q.month → r.year = q.year → exec (.c2t r) s = exec (.c2t q) s

/-- 42_calendar_converter.md R189: with a month outside 0..11 C2T still completes; its result is some
64-bit value, of which nothing is said, with zeros above; no fault, and no register changes (only the
model's own draw counter, log 4). -/
def Obligations.C2tMonthOutOfRangeGivesAnyValue : Prop :=
  ∀ (r : CalendarRecord) (s : State), r.month.toInt < 0 ∨ 11 < r.month.toInt →
    ∃ (x : TimeWord) (n : Nat), exec (.c2t r) s =
      .next { s with res := some (BitVec.ofNat 257 x.toNat), freeDraws := n }

/-- 42_calendar_converter.md R190: the result never leaves the stated extremes, so truncation to 64
bits changes nothing; both extremes are reached. -/
def Obligations.C2tNeverOverflows : Prop :=
  (∀ (r : CalendarRecord) (T : Int), secondsOfRecord r = some T →
    -67961445134649728 ≤ T ∧ T ≤ 67961440713644467 ∧ sext64 (trunc64 T) = T)
    ∧ secondsOfRecord
        { sec := 0x7FFFFFFF, min := 0x7FFFFFFF, hour := 0x7FFFFFFF, monthDay := 0x7FFFFFFF
          month := 11, year := 0x7FFFFFFF, weekday := 0, yearDay := 0, isDst := false }
        = some 67961440713644467
    ∧ secondsOfRecord
        { sec := 0x80000000, min := 0x80000000, hour := 0x80000000, monthDay := 0x80000000
          month := 0, year := 0x80000000, weekday := 0, yearDay := 0, isDst := false }
        = some (-67961445134649728)

/-- 42_calendar_converter.md R188: seconds, minutes, hours and day of month enter linearly, whatever
their values; no field is normalised or clamped. -/
def Obligations.C2tFieldsEnterLinearly : Prop :=
  ∀ r : CalendarRecord, 0 ≤ r.month.toInt → r.month.toInt ≤ 11 →
    ∃ T, secondsOfRecord { r with sec := 0, min := 0, hour := 0, monthDay := 1 } = some T
      ∧ secondsOfRecord r =
          some (T + (r.monthDay.toInt - 1) * 86400 + r.hour.toInt * 3600 + r.min.toInt * 60
            + r.sec.toInt)

/-- 42_calendar_converter.md R187, last sentence: an in-range record of a year before 1970 gives a
negative timestamp, and one of 1970 or later does not. -/
def Obligations.C2tIsNegativeExactlyBefore1970 : Prop :=
  ∀ r : CalendarRecord, InRange r →
    ∃ T, secondsOfRecord r = some T ∧ (T < 0 ↔ r.year.toInt < 70)

/-! ## The calendar -/

/-- 42_calendar_converter.md R163, R185: `L` counts the leap days between 1 Jan 1970 and 1 Jan of any
year, before or after, in both of the rule's forms. -/
def Obligations.LeapCountCountsLeapYears : Prop :=
  leapCount 1970 = 0 ∧ (∀ Y, leapCount (Y + 1) = leapCount Y + leapDay Y)
    ∧ ∀ Y, leapCount Y =
        ((Y - 1) / 4 - (Y - 1) / 100 + (Y - 1) / 400)
          - ((1969 : Int) / 4 - 1969 / 100 + 1969 / 400)

/-- 42_calendar_converter.md R162: the cumulative table follows from the month lengths, and has entries
for months 0 to 11 only. -/
def Obligations.CumulativeTableSumsMonthLengths : Prop :=
  ∀ Y : Int, cum Y 0 = some 0
    ∧ (∀ m : Int, 0 ≤ m → m ≤ 10 → cum Y (m + 1) = (cum Y m).map (· + monthLength Y m))
    ∧ ∀ m : Int, cum Y m = none ↔ m < 0 ∨ 11 < m

/-- 42_calendar_converter.md R192, second part: C2T undoes T2C on every timestamp of R179's range,
whatever the flag. -/
def Obligations.C2tOfT2cIsTheTimestamp : Prop :=
  ∀ (t : TimeWord) (dst : Bool) (s : State),
    -67768040609740800 ≤ t.toInt → t.toInt ≤ 67768036191676799 →
    ∃ r s', exec (.t2c t dst) s = .next s' ∧ s'.res = some (recordImage r)
      ∧ exec (.c2t r) s' = .next { s with res := some (BitVec.ofNat 257 t.toNat) }

/-- 42_calendar_converter.md R192, first part: T2C undoes C2T on every in-range record; the weekday and
the day of the year come back as the true ones, every other field as it was. -/
def Obligations.T2cOfC2tIsTheRecord : Prop :=
  ∀ (r : CalendarRecord) (s : State), InRange r →
    ∃ (t : TimeWord) (s' : State) (c days : Int),
      exec (.c2t r) s = .next s' ∧ s'.res = some (BitVec.ofNat 257 t.toNat)
        ∧ cum (1900 + r.year.toInt) r.month.toInt = some c
        ∧ dayCount (1900 + r.year.toInt) r.month.toInt r.monthDay.toInt = some days
        ∧ exec (.t2c t r.isDst) s' = .next
            { s with
              res := some (recordImage
                { r with
                  weekday := BitVec.ofInt 32 ((days + 4) % 7)
                  yearDay := BitVec.ofInt 32 (c + r.monthDay.toInt - 1) }) }
end

