-- ==== Sys2Proof/Laws/Calendar.lean ====
section
/-!
SUPPORT. What the parts of T2C and C2T can do, said once: the era arithmetic of 42_calendar_converter.md
R176 to R180, the cumulative table of R162, and that a day count has one date (R192).
-/
namespace Sys2Proof.Machine

/-- A number in `0..11`, case by case. -/
theorem month_cases {m : Int} (h0 : 0 ≤ m) (h1 : m ≤ 11) :
    m = 0 ∨ m = 1 ∨ m = 2 ∨ m = 3 ∨ m = 4 ∨ m = 5 ∨ m = 6 ∨ m = 7 ∨ m = 8 ∨ m = 9 ∨ m = 10 ∨ m = 11 := by
  omega

theorem leapDay_cases (Y : Int) : leapDay Y = 0 ∨ leapDay Y = 1 := by
  unfold leapDay
  cases leap Y <;> simp

/-- The leap rule has the period of an era. -/
theorem leap_add_era (Y e : Int) : leap (Y + e * 400) = leap Y := by
  have h1 : (Y + e * 400) % 4 = Y % 4 := by omega
  have h2 : (Y + e * 400) % 100 = Y % 100 := by omega
  have h3 : (Y + e * 400) % 400 = Y % 400 := by omega
  simp only [leap, h1, h2, h3]

/-- The leap day of a year, as a difference of floors. -/
theorem leapDay_eq_floors (Y : Int) :
    leapDay Y = Y / 4 - Y / 100 + Y / 400 - ((Y - 1) / 4 - (Y - 1) / 100 + (Y - 1) / 400) := by
  unfold leapDay leap
  simp only [decide_eq_true_eq]
  split <;> omega

/-- The year and day inside one century of an era, the `c`-th, of which `r` is the day. -/
theorem century_spec {y c q r : Int} (hr : 0 ≤ r) (hr' : r ≤ 36523) (hc : 0 ≤ c) (hc' : c ≤ 3)
    (hq : (36524 * c + r) / 1460 = q) (hy : (36524 * c + r - q + c) / 365 = y) :
    0 ≤ y ∧ y ≤ 399 ∧ 0 ≤ 36524 * c + r - (365 * y + y / 4 - y / 100)
      ∧ 36524 * c + r - (365 * y + y / 4 - y / 100) ≤ 365
      ∧ (36524 * c + r - (365 * y + y / 4 - y / 100) = 365 → (y + 1) % 4 = 0 ∧ (y + 1) % 100 ≠ 0) := by
  obtain ⟨x, rfl⟩ : ∃ x, y = 100 * c + x := ⟨y - 100 * c, by omega⟩
  have hx : 0 ≤ x ∧ x ≤ 100 := by omega
  rcases (by omega : x = 100 ∨ x < 100) with h | h
  · exfalso
    omega
  rw [show (100 * c + x) / 100 = c by omega, show (100 * c + x) / 4 = 25 * c + x / 4 by omega]
  refine ⟨by omega, by omega, ?_⟩
  obtain ⟨k, j, rfl, hj, hj'⟩ : ∃ k j, x = 4 * k + j ∧ 0 ≤ j ∧ j ≤ 3 :=
    ⟨x / 4, x % 4, by omega, by omega, by omega⟩
  rw [show (4 * k + j) / 4 = k by omega]
  have hk : 0 ≤ k ∧ k ≤ 24 := by omega
  refine ⟨by omega, by omega, fun hd => ?_⟩
  obtain rfl : r = 1461 * k + 365 * j + 365 := by omega
  have hj3 : j = 3 := by
    rcases (by omega : j = 3 ∨ j ≤ 2) with h3 | h3
    · exact h3
    · have : q = 25 * c + k := by omega
      omega
  omega

/-- R176, R177: from the day of the era, the year of the era and the day of the March-based year, with
day 365 only before a leap day. -/
theorem yearOfEra_spec {doe : Int} (h0 : 0 ≤ doe) (h1 : doe ≤ 146096) :
    0 ≤ yearOfEra doe ∧ yearOfEra doe ≤ 399 ∧ 0 ≤ marchDay doe (yearOfEra doe)
      ∧ marchDay doe (yearOfEra doe) ≤ 365
      ∧ (marchDay doe (yearOfEra doe) = 365 → leap (yearOfEra doe + 1) = true) := by
  unfold yearOfEra marchDay leap
  rcases (by omega : doe = 146096 ∨ doe < 146096) with rfl | h
  · decide
  · obtain ⟨c, hc⟩ : ∃ c, doe / 36524 = c := ⟨_, rfl⟩
    have he : doe / 146096 = 0 := by omega
    obtain ⟨r, rfl⟩ : ∃ r, doe = 36524 * c + r := ⟨doe - 36524 * c, by omega⟩
    rw [hc, he, Int.sub_zero]
    obtain ⟨a, b, d, e, f⟩ :=
      century_spec (r := r) (c := c) (by omega) (by omega) (by omega) (by omega) rfl rfl
    exact ⟨a, b, d, e, fun g => decide_eq_true (.inl (f g))⟩

/-- R177: month and day of the March-based year. -/
theorem marchMonth_spec {doy : Int} (h0 : 0 ≤ doy) (h1 : doy ≤ 365) :
    0 ≤ marchMonth doy ∧ marchMonth doy ≤ 11 ∧ 1 ≤ dayOfMonth doy (marchMonth doy)
      ∧ dayOfMonth doy (marchMonth doy) ≤ 31 := by
  unfold marchMonth dayOfMonth
  omega

/-- The cumulative table as a formula. -/
theorem cum_eq_formula (Y : Int) {m : Int} (h0 : 0 ≤ m) (h1 : m ≤ 11) :
    cum Y m = some (if m = 0 then 0 else if m = 1 then 31
      else (153 * (m - 2) + 2) / 5 + 59 + leapDay Y) := by
  unfold cum leapDay
  cases leap Y <;>
    rcases month_cases h0 h1 with rfl | rfl | rfl | rfl | rfl | rfl | rfl | rfl | rfl | rfl | rfl | rfl <;>
    rfl

/-- The cumulative table as a table. -/
theorem cum_eq_table (Y : Int) {m : Int} (h0 : 0 ≤ m) (h1 : m ≤ 11) :
    cum Y m = some ((if leap Y then cumLeap else cumCommon).getD m.toNat 0) := by
  unfold cum
  cases leap Y <;>
    rcases month_cases h0 h1 with rfl | rfl | rfl | rfl | rfl | rfl | rfl | rfl | rfl | rfl | rfl | rfl <;>
    rfl

/-- An entry of the table, with its month and its month's length inside the year. -/
theorem cum_bounds {Y m c : Int} (h : cum Y m = some c) :
    0 ≤ m ∧ m ≤ 11 ∧ 0 ≤ c ∧ c + monthLength Y m ≤ 365 + leapDay Y := by
  by_cases hm : 0 ≤ m ∧ m ≤ 11
  · rw [cum_eq_formula Y hm.1 hm.2] at h
    have hc := Option.some.inj h
    have hl := leapDay_cases Y
    refine ⟨hm.1, hm.2, ?_⟩
    unfold monthLength
    rcases month_cases hm.1 hm.2 with rfl | rfl | rfl | rfl | rfl | rfl | rfl | rfl | rfl | rfl | rfl | rfl <;>
      norm_num at hc ⊢ <;> omega
  · exfalso
    unfold cum at h
    split at h
    · have hlen : (if leap Y then cumLeap else cumCommon).length = 12 := by split <;> rfl
      rw [List.getElem?_eq_none_iff.2 (by rw [hlen]; omega)] at h
      cases h
    · cases h

/-- R178, R180: the date of a day of the March-based year, in a year `Y` that ends a leap February
whenever that day is number 365. -/
theorem januaryMonth_spec {doy : Int} (h0 : 0 ≤ doy) (h1 : doy ≤ 365) (Y : Int)
    (hl : doy = 365 → leap Y = true) :
    ∃ c, cum Y (januaryMonth (marchMonth doy)) = some c
      ∧ 0 ≤ januaryMonth (marchMonth doy) ∧ januaryMonth (marchMonth doy) ≤ 11
      ∧ 1 ≤ dayOfMonth doy (marchMonth doy)
      ∧ dayOfMonth doy (marchMonth doy) ≤ monthLength Y (januaryMonth (marchMonth doy))
      ∧ (januaryMonth (marchMonth doy) ≤ 1 ↔ 306 ≤ doy)
      ∧ c + dayOfMonth doy (marchMonth doy) - 1 =
          if 306 ≤ doy then doy - 306 else doy + 59 + leapDay Y := by
  obtain ⟨m0, m1, _, _⟩ := marchMonth_spec h0 h1
  have hmp : marchMonth doy = (5 * doy + 2) / 153 := rfl
  have hd : dayOfMonth doy (marchMonth doy) = doy - (153 * marchMonth doy + 2) / 5 + 1 := rfl
  have hm : januaryMonth (marchMonth doy) =
      if marchMonth doy < 10 then marchMonth doy + 2 else marchMonth doy - 10 := rfl
  generalize dayOfMonth doy (marchMonth doy) = d at *
  generalize januaryMonth (marchMonth doy) = m at *
  generalize marchMonth doy = mp at *
  have hnl : doy ≤ 364 ∨ leapDay Y = 1 := by
    rcases (by omega : doy ≤ 364 ∨ doy = 365) with h | h
    · exact .inl h
    · exact .inr (by unfold leapDay; rw [hl h]; rfl)
  have hl01 := leapDay_cases Y
  have hm11 : 0 ≤ m ∧ m ≤ 11 := by split at hm <;> omega
  refine ⟨_, cum_eq_formula Y hm11.1 hm11.2, hm11.1, hm11.2, ?_⟩
  unfold monthLength
  rcases month_cases m0 m1 with h | h | h | h | h | h | h | h | h | h | h | h <;>
    · rw [h] at hm hmp hd
      norm_num at hm hd
      subst hm hd
      norm_num
      omega

/-- R173 to R180: the date of a day count, for every integer. -/
theorem civilOfDays_spec (days : Int) :
    ∃ c, cum (civilOfDays days).year (civilOfDays days).month = some c
      ∧ 0 ≤ (civilOfDays days).month ∧ (civilOfDays days).month ≤ 11
      ∧ 1 ≤ (civilOfDays days).monthDay
      ∧ (civilOfDays days).monthDay ≤ monthLength (civilOfDays days).year (civilOfDays days).month
      ∧ (civilOfDays days).yearDay = c + (civilOfDays days).monthDay - 1
      ∧ days = ((civilOfDays days).year - 1970) * 365 + leapCount (civilOfDays days).year + c
          + ((civilOfDays days).monthDay - 1)
      ∧ (civilOfDays days).weekday = (days + 4) % 7 := by
  unfold civilOfDays
  extract_lets z era doe yoe doy mp month Y
  have hz : z = days + 719468 := rfl
  have he : era = z / 146097 := rfl
  have hd : doe = z - era * 146097 := rfl
  obtain ⟨h1, h2, h3, h4, h5⟩ := yearOfEra_spec (doe := doe) (by omega) (by omega)
  change 0 ≤ yoe at h1
  change yoe ≤ 399 at h2
  have hY : Y = yoe + era * 400 + (if month ≤ 1 then 1 else 0) := rfl
  have hdoy : doy = doe - (365 * yoe + yoe / 4 - yoe / 100) := rfl
  have hl : doy = 365 → leap Y = true := by
    intro h
    have hm : month ≤ 1 := by
      show januaryMonth (marchMonth doy) ≤ 1
      rw [h]
      decide
    rw [hY, if_pos hm, show yoe + era * 400 + 1 = (yoe + 1) + era * 400 by ring, leap_add_era]
    exact h5 h
  obtain ⟨c, g1, g2, g3, g4, g5, g6, g7⟩ := januaryMonth_spec h3 h4 Y hl
  refine ⟨c, g1, g2, g3, g4, g5, g7.symm, ?_, by show (z + 3) % 7 = _; omega⟩
  change c + dayOfMonth doy mp - 1 = if 306 ≤ doy then doy - 306 else doy + 59 + leapDay Y at g7
  change month ≤ 1 ↔ 306 ≤ doy at g6
  show days = (Y - 1970) * 365 + leapCount Y + c + (dayOfMonth doy mp - 1)
  generalize dayOfMonth doy mp = d at *
  clear_value month mp doy yoe
  have hld := leapDay_eq_floors Y
  unfold leapCount
  by_cases hm : month ≤ 1
  · rw [if_pos hm] at hY
    rw [if_pos (g6.1 hm)] at g7
    omega
  · rw [if_neg hm] at hY
    rw [if_neg (fun h => hm (g6.2 h))] at g7
    omega

/-- The year of a day count is the one whose first day is not after it and whose last is not before. -/
theorem civilOfDays_year_bounds (days : Int) :
    ((civilOfDays days).year - 1970) * 365 + leapCount (civilOfDays days).year ≤ days
      ∧ days < ((civilOfDays days).year + 1 - 1970) * 365 + leapCount ((civilOfDays days).year + 1) := by
  obtain ⟨c, h1, h2, h3, h4, h5, -, h7, -⟩ := civilOfDays_spec days
  obtain ⟨-, -, c0, c1⟩ := cum_bounds h1
  have hld := leapDay_eq_floors (civilOfDays days).year
  unfold leapCount at *
  omega

/-- 1 January of a later year comes later. -/
theorem yearStart_mono {A B : Int} (h : A ≤ B) :
    A * 365 + leapCount A ≤ B * 365 + leapCount B := by
  unfold leapCount
  have h4 : (A - 1969) / 4 ≤ (B - 1969) / 4 := by omega
  have h400 : (A - 1601) / 400 ≤ (B - 1601) / 400 := by omega
  have h100 : (B - 1901) / 100 ≤ (A - 1901) / 100 + (B - A) := by omega
  omega

/-- Two years that both hold a day are one year. -/
theorem year_unique {Y Z D : Int} (h1 : (Y - 1970) * 365 + leapCount Y ≤ D)
    (h2 : D < (Y + 1 - 1970) * 365 + leapCount (Y + 1)) (h3 : (Z - 1970) * 365 + leapCount Z ≤ D)
    (h4 : D < (Z + 1 - 1970) * 365 + leapCount (Z + 1)) : Z = Y := by
  have : ¬ Z < Y := fun h => by
    have := yearStart_mono (A := Z + 1) (B := Y) h
    omega
  have : ¬ Y < Z := fun h => by
    have := yearStart_mono (A := Y + 1) (B := Z) h
    omega
  omega

/-- Two dates of one year that are the same day of the year are one date. -/
theorem month_unique {Y m m' d d' c c' : Int} (hc : cum Y m = some c) (hc' : cum Y m' = some c')
    (h1 : 1 ≤ d) (h2 : d ≤ monthLength Y m) (h3 : 1 ≤ d') (h4 : d' ≤ monthLength Y m')
    (h : c + d = c' + d') : m = m' ∧ d = d' := by
  obtain ⟨a0, a1, -, -⟩ := cum_bounds hc
  obtain ⟨b0, b1, -, -⟩ := cum_bounds hc'
  rw [cum_eq_formula Y a0 a1] at hc
  rw [cum_eq_formula Y b0 b1] at hc'
  have hc := Option.some.inj hc
  have hc' := Option.some.inj hc'
  have hl := leapDay_cases Y
  have hm' := month_cases b0 b1
  unfold monthLength at h2 h4
  rcases month_cases a0 a1 with rfl | rfl | rfl | rfl | rfl | rfl | rfl | rfl | rfl | rfl | rfl | rfl <;>
    norm_num at hc h2 <;> omega

/-- The seconds of a record whose month has a table entry `c` (R182 to R188). -/
theorem secondsOfRecord_eq {r : CalendarRecord} {c : Int}
    (h : cum (1900 + r.year.toInt) r.month.toInt = some c) :
    secondsOfRecord r = some (((1900 + r.year.toInt - 1970) * 365 + leapCount (1900 + r.year.toInt)
      + c + (r.monthDay.toInt - 1)) * 86400 + r.hour.toInt * 3600 + r.min.toInt * 60
      + r.sec.toInt) := by
  simp [secondsOfRecord, dayCount, sext32, h]

end Sys2Proof.Machine
end

