-- ==== Sys2Proof/Laws/Decode.lean ====
section
/-!
SUPPORT. The small lemmas of the command word: the record image and its fields are inverse, and what the
decoder answers for each value of the `op` field.
-/
namespace Sys2Proof

/-- The fields of an image are the record it is the image of. -/
@[simp] theorem recordOfImage_recordImage (r : CalendarRecord) :
    recordOfImage (recordImage r) = r := by
  cases r
  simp only [recordOfImage, recordImage, CalendarRecord.mk.injEq]
  refine ⟨?_, ?_, ?_, ?_, ?_, ?_, ?_, ?_, ?_⟩
  case refine_9 => simp only [BitVec.getLsbD_append, BitVec.getLsbD_ofBool]; simp
  all_goals
    try simp (disch := omega) only [BitVec.extractLsb'_append_eq_of_le]
    simp (disch := omega) only [BitVec.extractLsb'_append_eq_of_add_le,
      BitVec.extractLsb'_eq_self, Nat.reduceSub]

/-- Every 257-bit word is the image of the record with its fields. -/
@[simp] theorem recordImage_recordOfImage (x : ResultWord) : recordImage (recordOfImage x) = x := by
  have h : BitVec.ofBool (x.getLsbD 256) = x.extractLsb' 256 1 := by
    apply BitVec.eq_of_getLsbD_eq
    intro i hi
    obtain rfl : i = 0 := by omega
    simp
  simp only [recordImage, recordOfImage, h]
  simp (disch := rfl) only [BitVec.extractLsb'_append_extractLsb'_eq_extractLsb']
  exact BitVec.extractLsb'_eq_self

/-- The `op` field is the command word modulo 8. -/
theorem opField_eq_iff (w : CommandWord) {k : Nat} (hk : k < 8) :
    opField w = BitVec.ofNat 3 k ↔ w.toNat % 8 = k := by
  rw [← BitVec.toNat_inj]
  simp only [opField, BitVec.extractLsb'_toNat, BitVec.toNat_ofNat, Nat.shiftRight_zero]
  omega

/-- A field of a word as a quotient of the word. -/
theorem extractLsb'_eq_ofNat_div {n : Nat} (w : BitVec n) (lo len : Nat) :
    w.extractLsb' lo len = BitVec.ofNat len (w.toNat / 2 ^ lo) := by
  apply BitVec.eq_of_toNat_eq
  simp [BitVec.extractLsb'_toNat, Nat.shiftRight_eq_div_pow]

/-- A bit of a word as a quotient of the word. -/
theorem getLsbD_eq_decide_div {n : Nat} (w : BitVec n) (i : Nat) :
    w.getLsbD i = decide (w.toNat / 2 ^ i % 2 = 1) := by
  rw [BitVec.getLsbD, Nat.testBit_eq_decide_div_mod_eq]

theorem decode_sample {w : CommandWord} (h : w.toNat % 8 = 1) :
    decode w = .ok (.sample (w.getLsbD 3) (w.extractLsb' 4 32)) :=
  if_pos ((opField_eq_iff w (by decide)).2 h)

theorem decode_fdec {w : CommandWord} (h : w.toNat % 8 = 2) :
    decode w = .ok (.fdec (w.extractLsb' 3 64)) := by
  have h1 := mt (opField_eq_iff w (k := 1) (by decide)).1 (by omega)
  rw [decode, if_neg h1, if_pos ((opField_eq_iff w (by decide)).2 h)]

theorem decode_t2c {w : CommandWord} (h : w.toNat % 8 = 3) :
    decode w = .ok (.t2c (w.extractLsb' 4 64) (w.getLsbD 3)) := by
  have h1 := mt (opField_eq_iff w (k := 1) (by decide)).1 (by omega)
  have h2 := mt (opField_eq_iff w (k := 2) (by decide)).1 (by omega)
  rw [decode, if_neg h1, if_neg h2, if_pos ((opField_eq_iff w (by decide)).2 h)]

theorem decode_c2t {w : CommandWord} (h : w.toNat % 8 = 4) :
    decode w = .ok (.c2t (recordOfImage (w.extractLsb' 3 257))) := by
  have h1 := mt (opField_eq_iff w (k := 1) (by decide)).1 (by omega)
  have h2 := mt (opField_eq_iff w (k := 2) (by decide)).1 (by omega)
  have h3 := mt (opField_eq_iff w (k := 3) (by decide)).1 (by omega)
  rw [decode, if_neg h1, if_neg h2, if_neg h3, if_pos ((opField_eq_iff w (by decide)).2 h)]

theorem decode_reserved {w : CommandWord} (h : w.toNat % 8 = 0 ∨ 5 ≤ w.toNat % 8) :
    decode w = .error (.reservedOp (opField w)) := by
  have h1 := mt (opField_eq_iff w (k := 1) (by decide)).1 (by omega)
  have h2 := mt (opField_eq_iff w (k := 2) (by decide)).1 (by omega)
  have h3 := mt (opField_eq_iff w (k := 3) (by decide)).1 (by omega)
  have h4 := mt (opField_eq_iff w (k := 4) (by decide)).1 (by omega)
  rw [decode, if_neg h1, if_neg h2, if_neg h3, if_neg h4]

end Sys2Proof
end

