-- ==== Sys2Proof/Laws/State.lean ====
section
/-!
SUPPORT. One lemma per field per update of the state, so that no later proof unfolds a record update.
-/
namespace Sys2Proof.Machine

section
variable (s : State) (l : Bool) (ts : TsWord) (f : FrameWord) (x : ResultWord)
  (k : List HostInput) (w : CommandWord)

@[simp] theorem recordSample_buf : (recordSample l ts s).buf = s.buf := rfl
@[simp] theorem recordSample_pos : (recordSample l ts s).pos = s.pos := rfl
@[simp] theorem recordSample_prevLevel : (recordSample l ts s).prevLevel = l := rfl
@[simp] theorem recordSample_prevTs : (recordSample l ts s).prevTs = ts := rfl
@[simp] theorem recordSample_parRun : (recordSample l ts s).parRun = s.parRun := rfl
@[simp] theorem recordSample_parMin : (recordSample l ts s).parMin = s.parMin := rfl
@[simp] theorem recordSample_parHour : (recordSample l ts s).parHour = s.parHour := rfl
@[simp] theorem recordSample_parDate : (recordSample l ts s).parDate = s.parDate := rfl
@[simp] theorem recordSample_res : (recordSample l ts s).res = s.res := rfl
@[simp] theorem recordSample_frm : (recordSample l ts s).frm = s.frm := rfl
@[simp] theorem recordSample_inputs : (recordSample l ts s).inputs = s.inputs := rfl
@[simp] theorem recordSample_resetParams : (recordSample l ts s).resetParams = s.resetParams := rfl
@[simp] theorem recordSample_freeDraws : (recordSample l ts s).freeDraws = s.freeDraws := rfl

@[simp] theorem clearAssembler_buf : (clearAssembler s).buf = 0 := rfl
@[simp] theorem clearAssembler_pos : (clearAssembler s).pos = 0 := rfl
@[simp] theorem clearAssembler_prevLevel : (clearAssembler s).prevLevel = s.prevLevel := rfl
@[simp] theorem clearAssembler_prevTs : (clearAssembler s).prevTs = s.prevTs := rfl
@[simp] theorem clearAssembler_parRun : (clearAssembler s).parRun = false := rfl
@[simp] theorem clearAssembler_parMin : (clearAssembler s).parMin = false := rfl
@[simp] theorem clearAssembler_parHour : (clearAssembler s).parHour = false := rfl
@[simp] theorem clearAssembler_parDate : (clearAssembler s).parDate = false := rfl
@[simp] theorem clearAssembler_res : (clearAssembler s).res = s.res := rfl
@[simp] theorem clearAssembler_frm : (clearAssembler s).frm = s.frm := rfl
@[simp] theorem clearAssembler_inputs : (clearAssembler s).inputs = s.inputs := rfl
@[simp] theorem clearAssembler_resetParams : (clearAssembler s).resetParams = s.resetParams := rfl
@[simp] theorem clearAssembler_freeDraws : (clearAssembler s).freeDraws = s.freeDraws := rfl

@[simp] theorem emitFrame_buf : (emitFrame f ts s).buf = s.buf := rfl
@[simp] theorem emitFrame_pos : (emitFrame f ts s).pos = s.pos := rfl
@[simp] theorem emitFrame_prevLevel : (emitFrame f ts s).prevLevel = s.prevLevel := rfl
@[simp] theorem emitFrame_prevTs : (emitFrame f ts s).prevTs = s.prevTs := rfl
@[simp] theorem emitFrame_parRun : (emitFrame f ts s).parRun = s.parRun := rfl
@[simp] theorem emitFrame_parMin : (emitFrame f ts s).parMin = s.parMin := rfl
@[simp] theorem emitFrame_parHour : (emitFrame f ts s).parHour = s.parHour := rfl
@[simp] theorem emitFrame_parDate : (emitFrame f ts s).parDate = s.parDate := rfl
@[simp] theorem emitFrame_res : (emitFrame f ts s).res = s.res := rfl
@[simp] theorem emitFrame_frm : (emitFrame f ts s).frm = some ⟨f, ts⟩ := rfl
@[simp] theorem emitFrame_inputs : (emitFrame f ts s).inputs = s.inputs := rfl
@[simp] theorem emitFrame_resetParams : (emitFrame f ts s).resetParams = s.resetParams := rfl
@[simp] theorem emitFrame_freeDraws : (emitFrame f ts s).freeDraws = s.freeDraws := rfl

@[simp] theorem deliverResult_buf : (deliverResult x s).buf = s.buf := rfl
@[simp] theorem deliverResult_pos : (deliverResult x s).pos = s.pos := rfl
@[simp] theorem deliverResult_prevLevel : (deliverResult x s).prevLevel = s.prevLevel := rfl
@[simp] theorem deliverResult_prevTs : (deliverResult x s).prevTs = s.prevTs := rfl
@[simp] theorem deliverResult_parRun : (deliverResult x s).parRun = s.parRun := rfl
@[simp] theorem deliverResult_parMin : (deliverResult x s).parMin = s.parMin := rfl
@[simp] theorem deliverResult_parHour : (deliverResult x s).parHour = s.parHour := rfl
@[simp] theorem deliverResult_parDate : (deliverResult x s).parDate = s.parDate := rfl
@[simp] theorem deliverResult_res : (deliverResult x s).res = some x := rfl
@[simp] theorem deliverResult_frm : (deliverResult x s).frm = s.frm := rfl
@[simp] theorem deliverResult_inputs : (deliverResult x s).inputs = s.inputs := rfl
@[simp] theorem deliverResult_resetParams : (deliverResult x s).resetParams = s.resetParams := rfl
@[simp] theorem deliverResult_freeDraws : (deliverResult x s).freeDraws = s.freeDraws := rfl

@[simp] theorem countDraw_buf : (countDraw s).buf = s.buf := rfl
@[simp] theorem countDraw_pos : (countDraw s).pos = s.pos := rfl
@[simp] theorem countDraw_prevLevel : (countDraw s).prevLevel = s.prevLevel := rfl
@[simp] theorem countDraw_prevTs : (countDraw s).prevTs = s.prevTs := rfl
@[simp] theorem countDraw_parRun : (countDraw s).parRun = s.parRun := rfl
@[simp] theorem countDraw_parMin : (countDraw s).parMin = s.parMin := rfl
@[simp] theorem countDraw_parHour : (countDraw s).parHour = s.parHour := rfl
@[simp] theorem countDraw_parDate : (countDraw s).parDate = s.parDate := rfl
@[simp] theorem countDraw_res : (countDraw s).res = s.res := rfl
@[simp] theorem countDraw_frm : (countDraw s).frm = s.frm := rfl
@[simp] theorem countDraw_inputs : (countDraw s).inputs = s.inputs := rfl
@[simp] theorem countDraw_resetParams : (countDraw s).resetParams = s.resetParams := rfl
@[simp] theorem countDraw_freeDraws : (countDraw s).freeDraws = s.freeDraws + 1 := rfl

@[simp] theorem openTransaction_buf : (openTransaction k s).buf = s.buf := rfl
@[simp] theorem openTransaction_pos : (openTransaction k s).pos = s.pos := rfl
@[simp] theorem openTransaction_prevLevel : (openTransaction k s).prevLevel = s.prevLevel := rfl
@[simp] theorem openTransaction_prevTs : (openTransaction k s).prevTs = s.prevTs := rfl
@[simp] theorem openTransaction_parRun : (openTransaction k s).parRun = s.parRun := rfl
@[simp] theorem openTransaction_parMin : (openTransaction k s).parMin = s.parMin := rfl
@[simp] theorem openTransaction_parHour : (openTransaction k s).parHour = s.parHour := rfl
@[simp] theorem openTransaction_parDate : (openTransaction k s).parDate = s.parDate := rfl
@[simp] theorem openTransaction_res : (openTransaction k s).res = none := rfl
@[simp] theorem openTransaction_frm : (openTransaction k s).frm = none := rfl
@[simp] theorem openTransaction_inputs : (openTransaction k s).inputs = k := rfl
@[simp] theorem openTransaction_resetParams : (openTransaction k s).resetParams = s.resetParams := rfl
@[simp] theorem openTransaction_freeDraws : (openTransaction k s).freeDraws = s.freeDraws := rfl

@[simp] theorem applyReset_buf : (applyReset k s).buf = 0 := rfl
@[simp] theorem applyReset_pos : (applyReset k s).pos = 0 := rfl
@[simp] theorem applyReset_prevLevel : (applyReset k s).prevLevel = s.resetParams.prevLevel := rfl
@[simp] theorem applyReset_prevTs : (applyReset k s).prevTs = s.resetParams.prevTs := rfl
@[simp] theorem applyReset_parRun : (applyReset k s).parRun = false := rfl
@[simp] theorem applyReset_parMin : (applyReset k s).parMin = false := rfl
@[simp] theorem applyReset_parHour : (applyReset k s).parHour = false := rfl
@[simp] theorem applyReset_parDate : (applyReset k s).parDate = false := rfl
@[simp] theorem applyReset_res : (applyReset k s).res = none := rfl
@[simp] theorem applyReset_frm : (applyReset k s).frm = none := rfl
@[simp] theorem applyReset_inputs : (applyReset k s).inputs = k := rfl
@[simp] theorem applyReset_resetParams : (applyReset k s).resetParams = s.resetParams := rfl
@[simp] theorem applyReset_freeDraws : (applyReset k s).freeDraws = s.freeDraws := rfl

@[simp] theorem presentCommand_buf : (presentCommand w s).buf = s.buf := rfl
@[simp] theorem presentCommand_pos : (presentCommand w s).pos = s.pos := rfl
@[simp] theorem presentCommand_prevLevel : (presentCommand w s).prevLevel = s.prevLevel := rfl
@[simp] theorem presentCommand_prevTs : (presentCommand w s).prevTs = s.prevTs := rfl
@[simp] theorem presentCommand_parRun : (presentCommand w s).parRun = s.parRun := rfl
@[simp] theorem presentCommand_parMin : (presentCommand w s).parMin = s.parMin := rfl
@[simp] theorem presentCommand_parHour : (presentCommand w s).parHour = s.parHour := rfl
@[simp] theorem presentCommand_parDate : (presentCommand w s).parDate = s.parDate := rfl
@[simp] theorem presentCommand_res : (presentCommand w s).res = s.res := rfl
@[simp] theorem presentCommand_frm : (presentCommand w s).frm = s.frm := rfl
@[simp] theorem presentCommand_inputs : (presentCommand w s).inputs = .cmd w :: s.inputs := rfl
@[simp] theorem presentCommand_resetParams : (presentCommand w s).resetParams = s.resetParams := rfl
@[simp] theorem presentCommand_freeDraws : (presentCommand w s).freeDraws = s.freeDraws := rfl

end

end Sys2Proof.Machine
end

