-- ==== Sys2Proof/Laws/Ops.lean ====
section
/-!
SUPPORT. What each shared operation of the decoder unit can do, said once, and the inversion lemmas of
SAMPLE and of a step.
-/
namespace Sys2Proof.Machine

/-- A write reaches its own bit and no other. -/
theorem bufWrite_getLsbD (buf : FrameWord) (b : Bool) {i j : Nat} (hi : i < 64) (hj : j < 64) :
    (bufWrite buf i b).getLsbD j = if j = i then b else buf.getLsbD j := by
  unfold bufWrite
  simp only [BitVec.getLsbD_or, BitVec.getLsbD_and, BitVec.getLsbD_not, BitVec.getLsbD_shiftLeft,
    BitVec.getLsbD_setWidth, BitVec.getLsbD_ofBool, BitVec.getLsbD_one]
  by_cases h : j = i
  · subst h; simp [hj]
  · have : ¬ (¬ j < i ∧ j - i = 0) := by omega
    by_cases h2 : j < i
    · simp [h, h2, hj]
    · have : j - i ≠ 0 := by omega
      simp [h, h2, hj, this]

/-- Two buffers that agree on a range have the same parity there. -/
theorem parityOf_congr {f g : FrameWord} {lo : Nat} :
    ∀ {n : Nat}, (∀ i, lo ≤ i → i < lo + n → f.getLsbD i = g.getLsbD i) →
      parityOf f lo n = parityOf g lo n
  | 0, _ => rfl
  | n + 1, h => by
    simp only [parityOf]
    rw [parityOf_congr (n := n) fun i h1 h2 => h i h1 (by omega), h (lo + n) (by omega) (by omega)]

/-- A write at or above the end of a range leaves its parity alone. -/
theorem parityOf_bufWrite_above (buf : FrameWord) (b : Bool) {i lo n : Nat} (hi : i < 64)
    (h : lo + n ≤ i) : parityOf (bufWrite buf i b) lo n = parityOf buf lo n :=
  parityOf_congr fun j _ h2 => by
    rw [bufWrite_getLsbD buf b hi (by omega), if_neg (by omega)]

/-- A write just past a range extends the parity by the bit written. -/
theorem parityOf_bufWrite_next (buf : FrameWord) (b : Bool) {lo n : Nat} (h : lo + n < 64) :
    parityOf (bufWrite buf (lo + n) b) lo (n + 1) = (parityOf buf lo n ^^ b) := by
  simp only [parityOf]
  rw [parityOf_bufWrite_above buf b h (Nat.le_refl _), bufWrite_getLsbD buf b h h, if_pos rfl]

@[simp] theorem foldBit_eq_xor (run b : Bool) : foldBit run b = (run ^^ b) := by
  cases run <;> cases b <;> rfl

/-- The overflow guard, at 59 and above. -/
theorem appendBit_full {s : State} (b : Bool) (h : 59 ≤ s.pos.toNat) : appendBit b s = s :=
  if_neg (Nat.not_lt.mpr h)

/-- With room left APPENDBIT is this one update. -/
theorem appendBit_room {s : State} (b : Bool) (h : s.pos.toNat < 59) :
    appendBit b s =
      { s with
        buf := bufWrite s.buf s.pos.toNat b
        parMin := latchAt 28 s.pos.toNat (clearAtStart s.pos.toNat s.parRun) s.parMin
        parHour := latchAt 35 s.pos.toNat (clearAtStart s.pos.toNat s.parRun) s.parHour
        parDate := latchAt 58 s.pos.toNat (clearAtStart s.pos.toNat s.parRun) s.parDate
        parRun := foldBit (clearAtStart s.pos.toNat s.parRun) b
        pos := s.pos + 1 } :=
  if_pos h

/-- The position saturates: it advances by one below 59. -/
theorem appendBit_pos_toNat {s : State} (b : Bool) (h : s.pos.toNat < 59) :
    (appendBit b s).pos.toNat = s.pos.toNat + 1 := by
  rw [appendBit_room b h]
  have h1 : (1 : PosWord).toNat = 1 := rfl
  simp only [BitVec.toNat_add, h1]
  omega

/-- What APPENDBIT never writes. -/
theorem appendBit_frame (b : Bool) (s : State) :
    (appendBit b s).prevLevel = s.prevLevel ∧ (appendBit b s).prevTs = s.prevTs
      ∧ (appendBit b s).res = s.res ∧ (appendBit b s).frm = s.frm
      ∧ (appendBit b s).inputs = s.inputs ∧ (appendBit b s).resetParams = s.resetParams
      ∧ (appendBit b s).freeDraws = s.freeDraws := by
  unfold appendBit
  split <;> exact ⟨rfl, rfl, rfl, rfl, rfl, rfl, rfl⟩

/-- The success condition as a proposition. -/
theorem concludeOk_iff (s : State) :
    concludeOk s = true ↔ s.pos.toNat = 59 ∧ s.parMin = s.buf.getLsbD 28
      ∧ s.parHour = s.buf.getLsbD 35 ∧ s.parDate = s.buf.getLsbD 58 := by
  simp [concludeOk, parityBitMin, parityBitHour, parityBitDate, bufRead, and_assoc]

/-- A minute boundary clears the assembler, and emits the buffer if the checks passed. -/
theorem minuteBoundary_eq (ts : TsWord) (s : State) :
    minuteBoundary ts s =
      if concludeOk s then emitFrame s.buf ts (clearAssembler s) else clearAssembler s := rfl

/-- SAMPLE of the level already recorded (R115). -/
theorem execSample_repeat {level : Bool} (ts : TsWord) {s : State} (h : s.prevLevel = level) :
    execSample level ts s = .next s := if_pos h.symm

/-- SAMPLE of a rising edge (R113). -/
theorem execSample_rising (ts : TsWord) {s : State} (h : s.prevLevel = false) :
    execSample true ts s =
      .next (recordSample true ts (appendBit (decide (170 ≤ elapsedMs s.prevTs ts)) s)) := by
  simp [execSample, h]

/-- SAMPLE of a falling edge at or past the sync threshold (R112). -/
theorem execSample_boundary {ts : TsWord} {s : State} (h : s.prevLevel = true)
    (hl : 1200 ≤ elapsedMs s.prevTs ts) :
    execSample false ts s = .next (recordSample false ts (minuteBoundary ts s)) := by
  simp [execSample, h, hl]

/-- SAMPLE of a falling edge below the sync threshold (R112). -/
theorem execSample_falling {ts : TsWord} {s : State} (h : s.prevLevel = true)
    (hl : elapsedMs s.prevTs ts < 1200) :
    execSample false ts s = .next (recordSample false ts s) := by
  simp [execSample, h, Nat.not_le.mpr hl]

/-- Everything SAMPLE can do (R131). -/
theorem execSample_cases {level : Bool} {ts : TsWord} {s t : State}
    (h : execSample level ts s = .next t) :
    (level = s.prevLevel ∧ t = s)
      ∨ (level = true ∧ s.prevLevel = false
          ∧ t = recordSample true ts (appendBit (decide (170 ≤ elapsedMs s.prevTs ts)) s))
      ∨ (level = false ∧ s.prevLevel = true ∧ 1200 ≤ elapsedMs s.prevTs ts
          ∧ t = recordSample false ts (minuteBoundary ts s))
      ∨ (level = false ∧ s.prevLevel = true ∧ elapsedMs s.prevTs ts < 1200
          ∧ t = recordSample false ts s) := by
  cases hp : s.prevLevel <;> cases level
  · rw [execSample_repeat ts hp] at h; cases h; simp
  · rw [execSample_rising ts hp] at h; cases h; simp
  · by_cases hl : 1200 ≤ elapsedMs s.prevTs ts
    · rw [execSample_boundary hp hl] at h; cases h; simp [hl]
    · rw [execSample_falling hp (by omega)] at h; cases h; simp; omega
  · rw [execSample_repeat ts hp] at h; cases h; simp

/-- Everything C2T can do. -/
theorem execC2t_cases {r : CalendarRecord} {s t : State} (h : execC2t r s = .next t) :
    (∃ T, secondsOfRecord r = some T ∧ t = deliverResult (timeResult (trunc64 T)) s)
      ∨ (secondsOfRecord r = none
          ∧ t = countDraw (deliverResult (timeResult (freeSeconds s.freeDraws r)) s)) := by
  unfold execC2t at h
  split at h <;> next he => cases h; simp [he]

/-- Everything a step can do. -/
theorem step_cases {s t : State} (h : step s = .next t) :
    (s.inputs = [] ∧ t = openTransaction [] s)
      ∨ (∃ rest, s.inputs = .rst :: rest ∧ t = applyReset rest s)
      ∨ (∃ w rest i, s.inputs = .cmd w :: rest ∧ decode w = .ok i
          ∧ exec i (openTransaction rest s) = .next t)
      ∨ (∃ w rest e, s.inputs = .cmd w :: rest ∧ decode w = .error e
          ∧ t = openTransaction rest s) := by
  unfold step at h
  split at h
  · next hi => cases h; exact .inl ⟨hi, rfl⟩
  · next rest hi => cases h; exact .inr (.inl ⟨rest, hi, rfl⟩)
  · next w rest hi =>
    split at h
    · next i hd => exact .inr (.inr (.inl ⟨w, rest, i, hi, hd, h⟩))
    · next e hd => cases h; exact .inr (.inr (.inr ⟨w, rest, e, hi, hd, rfl⟩))

end Sys2Proof.Machine
end

