-- ==== Sys2Proof/Laws/PerInstr.lean ====
section
/-!
SUPPORT. Statements about every operation, one lemma for each constructor. EncodeIssuable: exactly the
operations that can be issued have a command word (30_encoding.md R92, R94).
-/
namespace Sys2Proof.Laws.EncodeIssuable

def Statement (i : Instr) : Prop := (encode i).isSome = i.wellFormed

theorem sample (level : Bool) (ts : TsWord) : Statement (.sample level ts) := rfl

theorem fdec (frame : FrameWord) : Statement (.fdec frame) := rfl

theorem t2c (t : TimeWord) (dst : Bool) : Statement (.t2c t dst) := rfl

theorem c2t (r : CalendarRecord) : Statement (.c2t r) := rfl

theorem appendBit (b : Bool) : Statement (.appendBit b) := rfl

theorem conclude : Statement .conclude := rfl

end Sys2Proof.Laws.EncodeIssuable
end

