-- ==== Sys2Proof/Tests/Slice0.lean ====
section
/-!
SUPPORT. Tests of single steps and of the decoder, expected values from spec/95_test_vectors.md (the
vector is named at each test), and the witnesses: for each statement with hypotheses, a concrete state
and operands that meet them.
-/
namespace Sys2Proof.Tests
open Sys2Proof.Machine

/-- The next state, if there is one. -/
def after : Host.Outcome State Fault Refusal → Option State
  | .next t => some t
  | .fault _ => none
  | .refused _ => none

/-- A decoder state with an empty buffer: the start of the vectors of section 2.1. -/
def idle (level : Bool) (ts : TsWord) : State := { State.reset with prevLevel := level, prevTs := ts }

/-- A decoder state with these parity registers. -/
def mid (pos : PosWord) (buf : FrameWord) (run min hour date : Bool) : State :=
  { State.reset with
    pos := pos, buf := buf, parRun := run, parMin := min, parHour := hour, parDate := date }

/-- Program P1's frame. -/
def frameP1 : FrameWord := 0x00945E3AA6140000

/-- The state after 59 bits of `f`, the line high since 65100 ms (as P1 before command 121). -/
def full (f : FrameWord) : State :=
  { idle true 65100 with
    buf := f, pos := 59, parMin := parityOf f 21 7, parHour := parityOf f 29 6
    parDate := parityOf f 36 22 }

/-- A record with zeros in the fields C2T ignores. -/
def rec (sec min hour monthDay month year : FieldWord) : CalendarRecord :=
  { sec := sec, min := min, hour := hour, monthDay := monthDay, month := month, year := year
    weekday := 0, yearDay := 0, isDst := false }

/-! ## Well-formedness: what the check refuses -/

theorem test_wellFormed_refuses_appendBit : (Instr.appendBit true).wellFormed = false := by decide

theorem test_wellFormed_refuses_conclude : Instr.conclude.wellFormed = false := by decide

theorem test_wellFormed_accepts_commands :
    (Instr.sample true 0).wellFormed = true ∧ (Instr.fdec 0).wellFormed = true
      ∧ (Instr.t2c 0 true).wellFormed = true ∧ (Instr.c2t (rec 0 0 0 0 0 0)).wellFormed = true := by
  decide

/-! ## Decoding: words laid out field by field from the bit tables of R73 to R76, R86 -/

/-- V2.1-1, `0x4919`: `ts` in bits 35:4, `level` in bit 3, `op` in bits 2:0. -/
theorem test_decode_sample :
    decode ((1169#32 ++ 1#1 ++ 0b001#3).setWidth 260) = .ok (.sample true 1169)
      ∧ (1169#32 ++ 1#1 ++ 0b001#3).toNat = 0x4919 := by decide

/-- V2.6-5 and P1 command 122: `frame` in bits 66:3. -/
theorem test_decode_fdec :
    decode ((0x00945E3AA6140000#64 ++ 0b010#3).setWidth 260) = .ok (.fdec frameP1)
      ∧ decode 0xA = .ok (.fdec 1) := by decide

/-- P4 command 4: `t` in bits 67:4, `dst` in bit 3. -/
theorem test_decode_t2c :
    decode ((0xFFFFFFFF7C558180#64 ++ 1#1 ++ 0b011#3).setWidth 260) =
        .ok (.t2c (BitVec.ofInt 64 (-2208988800)) true)
      ∧ decode 0xFFFFFFFF7C558180B = .ok (.t2c (BitVec.ofInt 64 (-2208988800)) true) := by decide

/-- R86: nine fields with nine different values, `isDst` at the top. -/
theorem test_decode_c2t :
    decode (1#1 ++ 8#32 ++ 7#32 ++ 6#32 ++ 5#32 ++ 4#32 ++ 3#32 ++ 2#32 ++ 1#32 ++ 0b100#3) =
      .ok (.c2t { sec := 1, min := 2, hour := 3, monthDay := 4, month := 5, year := 6, weekday := 7
                  yearDay := 8, isDst := true }) := by decide

/-- V2.5-34. -/
theorem test_decode_c2t_vector :
    decode 0x80000064000000018000003E800000008000000B800000078000000F000000004 =
      .ok (.c2t { rec 0 30 15 23 1 125 with weekday := 3, yearDay := 200, isDst := true }) := by decide

/-- R78: the four reserved codes, with payload bits set. -/
theorem test_decode_reserved :
    decode 0x8 = .error (.reservedOp 0) ∧ decode 0xD = .error (.reservedOp 5)
      ∧ decode 0xE = .error (.reservedOp 6) ∧ decode 0xF = .error (.reservedOp 7) := by decide

/-- The micro-operations have no encoding (R94), and the word of P1 command 122 comes from the encoder. -/
theorem test_encode :
    encode (.appendBit true) = none ∧ encode .conclude = none
      ∧ encode (.fdec frameP1) = some 0x4A2F1D530A00002 := by decide

/-- A word longer than the port loses the bits the port does not have (log 19). -/
theorem test_decodeTableWord :
    decodeTableWord 264 0x4919 = some (.sample true 1169) ∧ decodeTableWord 8 0x4919 = some (.sample true 1)
      ∧ decodeTableWord 264 0x6 = none := by decide

/-! ## Single steps -/

/-- The very next step performs the word: P1 command 123, whose result is 0x67BB3EF8. -/
theorem test_step_withFetchWord :
    (after (step (State.reset.withFetchWord 264
      0x7FFFFFFF800000000000003E800000008000000B800000078000000F000000004))).bind (·.res) =
        some 0x67BB3EF8 := by decide

/-- V2.1-1 and V2.1-13: 169 ms is a 0; 200 ms across the wrap of the timestamp is a 1. -/
theorem test_sample_rising :
    (after (exec (.sample true 1169) (idle false 1000))).map (fun t => (t.buf, t.pos, t.prevTs)) =
        some (0, 1, 1169)
      ∧ (after (exec (.sample true 100) (idle false 4294967196))).map (fun t => (t.buf, t.pos, t.prevTs)) =
        some (1, 1, 100) := by decide

/-- P1 command 121: the minute boundary delivers the frame and clears the buffer. -/
theorem test_sample_boundary :
    (after (exec (.sample false 67000) (full frameP1))).map (fun t => (t.frm, t.buf, t.pos)) =
      some (some { frame := frameP1, ts := 67000 }, 0, 0) := by decide

/-- V2.2-6: the minutes latch takes the running parity before P1 is folded. -/
theorem test_appendBit_latches :
    after (exec (.appendBit true) (mid 28 0x200000 true false false false)) =
      some (mid 29 0x10200000 false true false false) := by decide

/-- V2.2-3: the running parity is cleared, then bit 21 is folded. -/
theorem test_appendBit_opens_segment :
    after (exec (.appendBit true) (mid 21 0x100001 true false false false)) =
      some (mid 22 0x300001 true false false false) := by decide

/-- V2.2-13, V2.2-16, V2.2-14: the success condition. -/
theorem test_conclude_success_condition :
    (conclude (mid 59 frameP1 false false true false)).1 = (true, frameP1)
      ∧ (conclude (mid 59 frameP1 false true true false)).1.1 = false
      ∧ (conclude (mid 58 frameP1 false false true false)).1.1 = false := by decide

/-- R127: afterwards the assembler is empty. -/
theorem test_conclude_clears :
    after (exec .conclude (mid 59 frameP1 true true true true)) =
      some (mid 0 0 false false false false) := by decide

/-- P1 command 122. -/
theorem test_fdec :
    (after (exec (.fdec frameP1) State.reset)).bind (·.res) =
      some 0xFFFFFFFF000000000000007D00000001000000170000000F0000001E00000000 := by decide

/-- Bits the spec's table gives for non-decimal digits: 0x1F in the hour field decodes to 25 (R141). -/
theorem test_fdec_not_decimal : (recordOfFrame (0x1F#64 <<< 29)).hour = 25 := by decide

/-- V2.4-2, P4 command 2. -/
theorem test_t2c_negative :
    (after (exec (.t2c (BitVec.ofInt 64 (-1)) false) State.reset)).bind (·.res) =
      some 0x16C00000003000000450000000B0000001F000000170000003B0000003B := by decide

/-- V2.4-35: 29 Feb of year 0, the era before. -/
theorem test_t2c_year_zero :
    recordOfTimestamp (-62162035201) false =
      { sec := 59, min := 59, hour := 23, monthDay := 29, month := 1, year := BitVec.ofInt 32 (-1900)
        weekday := 2, yearDay := 59, isDst := false } := by decide

/-- V2.5-2, P4 command 1. -/
theorem test_c2t_negative :
    (after (exec (.c2t (rec 59 59 23 31 11 69)) State.reset)).bind (·.res) =
      some 0xFFFFFFFFFFFFFFFF := by decide

/-- V2.5-22: 1 Jan 1968, where truncating division would be a day late. -/
theorem test_c2t_floor : secondsOfRecord (rec 0 0 0 1 0 68) = some (-63158400) := by decide

/-- R93: the two pulses. -/
theorem test_pulse :
    bit1 61000 = [.sample false 61000, .sample true 61200]
      ∧ bit0 61000 = [.sample false 61000, .sample true 61100] := by decide

/-! ## Witnesses of the statements' hypotheses

`witness_<statement>`: values that meet the hypotheses together; several where a statement has several
clauses, at the ends of each clause's range.
-/

theorem witness_ResetIsATransitionFromAnyState :
    ({ full frameP1 with inputs := [.rst, .cmd 1] } : State).inputs = .rst :: [.cmd 1] := by decide

theorem witness_WaitingChangesNoRegister : (full frameP1).inputs = [] := by decide

theorem witness_StepRunsTheDecodedCommand :
    ({ full frameP1 with inputs := [.cmd 0x105B81] } : State).inputs = .cmd 0x105B81 :: []
      ∧ decode 0x105B81 = .ok (.sample false 67000) := by decide

theorem witness_PlacedWordIsTheNextCommand :
    decodeTableWord 264 0x105B81 = some (.sample false 67000) := by decide

theorem witness_ReservedOpHasNoEffect :
    (0x8#260).toNat % 8 = 0 ∧ (0xD#260).toNat % 8 = 5 ∧ (0xE#260).toNat % 8 = 6
      ∧ (0xF#260).toNat % 8 = 7 := by decide

theorem witness_OperandFieldPositions :
    (0xFFFFFFFF9#260).toNat % 8 = 1 ∧ (0x4A2F1D530A00002#260).toNat % 8 = 2
      ∧ (0xFFFFFFFF7C558180B#260).toNat % 8 = 3
      ∧ (0x22800000058000000F8000000B8000001D8000001DC#260).toNat % 8 = 4 := by decide

theorem witness_DecodeOfEncodeIsTheOperation :
    (Instr.sample true 4294967295).wellFormed = true ∧ (Instr.appendBit true).wellFormed = false := by
  decide

theorem witness_EncodeOfDecodeClearsOnlyIgnoredBits :
    decode 0x1000000001 = .ok (.sample false 0) ∧ decode 0x80000000000000002 = .ok (.fdec 0)
      ∧ decode 0x10000000000000000B = .ok (.t2c 0 true)
      ∧ decode 0x22800000058000000F8000000B8000001D8000001DC = .ok (.c2t (rec 59 59 23 31 11 69)) := by
  decide

theorem witness_IgnoredBitsHaveNoEffect :
    ((0x9#260).toNat % 8 = 1 ∧ (0x1000000009#260).toNat % 2 ^ 36 = (0x9#260).toNat % 2 ^ 36)
      ∧ ((0xA#260).toNat % 8 = 2 ∧ (0x8000000000000000A#260).toNat % 2 ^ 67 = (0xA#260).toNat % 2 ^ 67)
      ∧ ((0xB#260).toNat % 8 = 3 ∧ (0x10000000000000000B#260).toNat % 2 ^ 68 = (0xB#260).toNat % 2 ^ 68)
      ∧ ∀ i : Fin 64, i.val = 17 ∨ (21 ≤ i.val ∧ i.val ≤ 27) ∨ (29 ≤ i.val ∧ i.val ≤ 34)
            ∨ (36 ≤ i.val ∧ i.val ≤ 57) →
          (frameP1 ^^^ 0xFC0000081011FFFF#64).getLsbD i.val = frameP1.getLsbD i.val := by decide

theorem witness_FallingEdgeConcludesFrom1200Ms :
    (idle true 1000).prevLevel = true
      ∧ ((2199#32).toNat + 2 ^ 32 - (idle true 1000).prevTs.toNat) % 2 ^ 32 < 1200
      ∧ 1200 ≤ ((2200#32).toNat + 2 ^ 32 - (idle true 1000).prevTs.toNat) % 2 ^ 32 := by decide

theorem witness_RisingEdgeAppendsTheTimedBit : (idle false 1000).prevLevel = false := by decide

theorem witness_AcceptedSampleIsRecorded : true ≠ (idle false 1000).prevLevel := by decide

theorem witness_ThresholdBoundaries :
    (idle false 1000).prevLevel = false ∧ (idle true 1000).prevLevel = true := by decide

theorem witness_SampleFrame :
    exec (.sample false 2199) (idle true 1000) = .next (idle false 2199)
      ∧ (idle true 1000).prevLevel = true ∧ (2199 - (idle true 1000).prevTs).toNat < 1200 := by
  refine ⟨rfl, ?_, ?_⟩ <;> decide

/-- P1 command 121 as a step: an event is left. -/
theorem witness_FrameEventExactlyAtASuccessfulMinute :
    ∃ t, step { full frameP1 with inputs := [.cmd 0x105B81] } = .next t
      ∧ t.frm = some { frame := frameP1, ts := 67000 } := ⟨_, rfl, by decide⟩

theorem witness_AppendBitStoresLatchesAndFolds :
    ∀ p ∈ [0, 20, 21, 27, 28, 29, 34, 35, 36, 57, 58],
      (mid (BitVec.ofNat 6 p) 0 true false false false).pos.toNat < 59
        ∧ (full frameP1).pos = 59 := by decide

theorem witness_OverflowGuard :
    ({ full frameP1 with prevLevel := false } : State).pos = 59
      ∧ ({ full frameP1 with prevLevel := false } : State).prevLevel = false := by decide

theorem witness_ConcludeSucceedsOnEvenParity : DecoderInv (full frameP1) ∧ (full frameP1).pos = 59 := by
  decide

/-- Each segment, at its first and last value bit, with and without its parity bit. -/
theorem witness_SingleBitFlipFailsAndParityFlipRepairs :
    (conclude (full frameP1)).1.1 = true ∧ DecoderInv (full frameP1)
      ∧ ∀ ip ∈ ([(21, 28), (27, 28), (29, 35), (34, 35), (36, 58), (57, 58)] : List (Nat × Nat)),
          DecoderInv (full (frameP1 ^^^ (1#64 <<< ip.1)))
            ∧ DecoderInv (full (frameP1 ^^^ (1#64 <<< ip.1) ^^^ (1#64 <<< ip.2))) := by
  refine ⟨by decide, by decide, ?_⟩
  rintro ip h
  simp only [List.mem_cons, List.not_mem_nil, or_false] at h
  rcases h with rfl | rfl | rfl | rfl | rfl | rfl <;> decide

theorem witness_DeliveredFrameIsClean :
    DecoderInv { full frameP1 with inputs := [.cmd 0x105B81] }
      ∧ ∃ t, step { full frameP1 with inputs := [.cmd 0x105B81] } = .next t
        ∧ t.frm = some { frame := frameP1, ts := 67000 } := ⟨by decide, _, rfl, by decide⟩

/-- The invariant in the middle of each segment and at its ends, on states that take a next state. -/
theorem witness_InvariantKeptByEveryStep :
    DecoderInv (full frameP1) ∧ DecoderInv (mid 22 0x300001 true false false false)
      ∧ DecoderInv (mid 29 0x10200000 false true false false)
      ∧ (∃ t, step (full frameP1) = .next t)
      ∧ ∃ t, exec (.appendBit true) (mid 22 0x300001 true false false false) = .next t :=
  ⟨by decide, by decide, by decide, ⟨_, rfl⟩, ⟨_, rfl⟩⟩

theorem witness_AssemblerKeepsTheFirst59Bits : AssemblerEmpty (idle true 0) := by decide

/-- The four ways a minute may start: the line high, high with a long gap, the opening falling edge
already taken (P1 after command 2), and a full assembler with the opening edge at the boundary. -/
theorem witness_EveryMinuteIsDeliveredOrDropped :
    let ins := commandInputs (minute 7000 frameP1 ++ [.sample false (7000 + 60000)]) ++ [.rst]
    let starts := [idle true 6000, idle true 5000, idle false 7000,
      { full frameP1 with prevTs := 5800 }].map fun s => { s with inputs := ins }
    (∀ s ∈ starts,
      (AssemblerEmpty s ∧ (s.prevLevel = true ∨ s.prevTs = 7000))
        ∨ (s.prevLevel = true ∧ 1200 ≤ ((7000#32).toNat + 2 ^ 32 - s.prevTs.toNat) % 2 ^ 32))
      ∧ (∀ s ∈ starts, s.inputs = ins) ∧ frameP1.toNat < 2 ^ 59 := by
  refine ⟨?_, fun s hs => ?_, by decide⟩
  · simp [idle, full, State.reset, State.resetTo, AssemblerEmpty]
  · obtain ⟨r, -, rfl⟩ := List.mem_map.1 hs
    rfl

theorem witness_ResetParametersAffectOnlyTheFirstSample :
    let p : Config.ResetParams := { prevLevel := false, prevTs := 0 }
    let q : Config.ResetParams := { prevLevel := false, prevTs := 355500 }
    (true ≠ p.prevLevel ∧ true ≠ q.prevLevel)
      ∧ (false ≠ { p with prevLevel := true }.prevLevel
          ∧ false ≠ { q with prevLevel := true }.prevLevel) := by decide

/-- The two states differ in bit 0 and in the running parity. -/
theorem witness_BitZeroDifferenceNeverSpreads :
    let t := { mid 1 0 false false false false with prevLevel := true }
    let u := { mid 1 1 true false false false with prevLevel := true }
    SameButBitZero t u ∧ t.frm = none ∧ u.frm = none ∧ t.prevLevel = true
      ∧ 1200 ≤ ((1200#32).toNat + 2 ^ 32 - t.prevTs.toNat) % 2 ^ 32 := by
  refine ⟨?_, ?_⟩
  · unfold SameButBitZero
    decide
  · decide

theorem witness_ConvertersCommuteWithSample :
    (∃ f, Instr.fdec 1 = .fdec f) ∧ (∃ t dst, Instr.t2c 1 true = .t2c t dst)
      ∧ ∃ r, Instr.c2t (rec 0 0 0 1 12 70) = .c2t r :=
  ⟨⟨_, rfl⟩, ⟨_, _, rfl⟩, ⟨_, rfl⟩⟩

/-- V2.4-R1 and V2.4-R2, the ends of R179's range; V2.4-R3 and V2.4-R4 lie just outside it. -/
theorem witness_T2cYearFieldExactRange :
    (∀ t ∈ [0xFF0F3D537C550800#64, 0x00F0C2AB7C54A97F#64],
      -67768040609740800 ≤ t.toInt ∧ t.toInt ≤ 67768036191676799)
      ∧ ∀ t ∈ [0xFF0F3D537C5507FF#64, 0x00F0C2AB7C54A980#64],
        ¬ (-67768040609740800 ≤ t.toInt ∧ t.toInt ≤ 67768036191676799) := by simp

/-- Months 0 and 11, in a leap and in a common year. -/
theorem witness_C2tDeliversTheFoldedSeconds :
    ∀ r ∈ [rec 0 0 0 1 0 70, rec 59 59 23 31 11 69, rec 0 0 0 29 11 100],
      0 ≤ r.month.toInt ∧ r.month.toInt ≤ 11 := by decide

theorem witness_C2tIgnoresWeekdayYearDayAndFlag :
    let r := rec 0 30 15 23 1 125
    let q := { rec 0 30 15 23 1 125 with weekday := 3, yearDay := 200, isDst := true }
    r.sec = q.sec ∧ r.min = q.min ∧ r.hour = q.hour ∧ r.monthDay = q.monthDay ∧ r.month = q.month
      ∧ r.year = q.year := by decide

theorem witness_C2tMonthOutOfRangeGivesAnyValue :
    (rec 0 0 0 1 (-1) 70).month.toInt < 0 ∧ 11 < (rec 0 0 0 1 12 70).month.toInt := by decide

theorem witness_C2tNeverOverflows : secondsOfRecord (rec 0 0 0 0 0 70) = some (-86400) := by decide

theorem witness_C2tFieldsEnterLinearly :
    ∀ r ∈ [rec 60 60 24 32 0 70, rec (-1) (-1) (-1) 0 11 70],
      0 ≤ r.month.toInt ∧ r.month.toInt ≤ 11 := by decide

/-- 31 Dec 1969, 29 Feb 2000, 1 Jan 1970. -/
theorem witness_C2tIsNegativeExactlyBefore1970 :
    InRange (rec 59 59 23 31 11 69) ∧ InRange (rec 0 0 0 29 1 100) ∧ InRange (rec 0 0 0 1 0 70) := by
  unfold InRange
  decide

/-- `b ≤ 15` at both ends; months 0 and 10 of the cumulative table's clause; seconds 0 and 58. -/
theorem witness_small_bounds :
    (0 : Nat) ≤ 15 ∧ (15 : Nat) ≤ 15 ∧ ((0 : Int) ≤ 0 ∧ (0 : Int) ≤ 10)
      ∧ ((0 : Int) ≤ 10 ∧ (10 : Int) ≤ 10) ∧ (0 : Nat) < 59 ∧ (58 : Nat) < 59 := by decide

theorem witness_C2tOfT2cIsTheTimestamp :
    ∀ t ∈ [0xFF0F3D537C550800#64, 0#64, 0x00F0C2AB7C54A97F#64],
      -67768040609740800 ≤ t.toInt ∧ t.toInt ≤ 67768036191676799 := by simp

/-- The earliest and the latest in-range records, and 29 Feb of year 0. -/
theorem witness_T2cOfC2tIsTheRecord :
    InRange (rec 0 0 0 1 0 0x80000000) ∧ InRange (rec 59 59 23 31 11 0x7FFFFFFF)
      ∧ InRange (rec 0 0 0 29 1 (BitVec.ofInt 32 (-1900))) := by
  unfold InRange
  decide

end Sys2Proof.Tests
end

section
/-!
PROOFS (10_state.md). The decoder invariant of R29: it holds in the empty assembler, and every update
of the state keeps it. APPENDBIT is the one update with work in it: its parity steps are the same for
each segment, so they are argued once, over a segment's start and end.
-/
namespace Sys2Proof.Machine

/-! ## One segment of the frame -/

/-- The segment with its first value bit at index `lo` has its parity bit at index `e`
(30_encoding.md R58). -/
def IsSegment (lo e : Nat) : Prop :=
  (lo = 21 ∧ e = 28) ∨ (lo = 29 ∧ e = 35) ∨ (lo = 36 ∧ e = 58)

/-- What R29 (c) and R25 say of one segment, with `p` bits appended: past its end the latch is the
parity of the value bits, inside it the running parity is that of the bits so far. -/
def SegmentInv (lo e p : Nat) (buf : FrameWord) (run latch : Bool) : Prop :=
  (e < p → latch = parityOf buf lo (e - lo))
    ∧ (lo < p → p ≤ e → run = parityOf buf lo (p - lo))

/-- The invariant, segment by segment. -/
theorem decoderInv_iff_segmentInv (s : State) :
    DecoderInv s ↔ BufferWithinPosition s
      ∧ SegmentInv 21 28 s.pos.toNat s.buf s.parRun s.parMin
      ∧ SegmentInv 29 35 s.pos.toNat s.buf s.parRun s.parHour
      ∧ SegmentInv 36 58 s.pos.toNat s.buf s.parRun s.parDate :=
  ⟨fun ⟨hb, ⟨lm, lh, ld⟩, rm, rh, rd⟩ => ⟨hb, ⟨lm, rm⟩, ⟨lh, rh⟩, ld, rd⟩,
    fun ⟨hb, ⟨lm, rm⟩, ⟨lh, rh⟩, ld, rd⟩ => ⟨hb, ⟨lm, lh, ld⟩, rm, rh, rd⟩⟩

/-- Within a segment, up to its parity bit, the running parity is cleared at the start only. -/
theorem opensSegment_iff_eq_start {lo e p : Nat} (hs : IsSegment lo e) (hlo : lo ≤ p)
    (he : p ≤ e) : opensSegment p = true ↔ p = lo := by
  simp only [opensSegment, Config.startMin, Config.startHour, Config.startDate, Bool.or_eq_true,
    beq_iff_eq]
  unfold IsSegment at hs
  omega

/-- After APPENDBIT's clear the running parity is that of the segment's bits so far, from the segment's
start (where there are none) to its end. -/
theorem clearAtStart_eq_parityOf {lo e p : Nat} {buf : FrameWord} {run : Bool}
    (hs : IsSegment lo e) (hrun : lo < p → p ≤ e → run = parityOf buf lo (p - lo))
    (hlo : lo ≤ p) (he : p ≤ e) : clearAtStart p run = parityOf buf lo (p - lo) := by
  have hopens := opensSegment_iff_eq_start hs hlo he
  by_cases hp : p = lo
  · subst hp
    simp [clearAtStart, hopens.mpr rfl, parityOf]
  · have hclosed : ¬ opensSegment p = true := mt hopens.mp hp
    rw [clearAtStart, if_neg hclosed]
    exact hrun (by omega) he

/-- The clear, latch, fold and store of APPENDBIT keep what is said of a segment. -/
theorem segmentInv_append {lo e p : Nat} {buf : FrameWord} {run latch : Bool} (b : Bool)
    (hs : IsSegment lo e) (hp : p < 64) (h : SegmentInv lo e p buf run latch) :
    SegmentInv lo e (p + 1) (bufWrite buf p b) (foldBit (clearAtStart p run) b)
      (latchAt e p (clearAtStart p run) latch) := by
  obtain ⟨hlatch, hrun⟩ := h
  have hcleared := clearAtStart_eq_parityOf hs hrun
  have hle : lo ≤ e := by unfold IsSegment at hs; omega
  refine ⟨fun hpast => ?_, fun hopen hin => ?_⟩
  · rw [parityOf_bufWrite_above buf b hp (by omega)]
    by_cases hend : p = e
    · subst hend
      rw [latchAt, if_pos rfl, hcleared hle (Nat.le_refl _)]
    · rw [latchAt, if_neg hend, hlatch (by omega)]
  · obtain ⟨n, rfl⟩ : ∃ n, p = lo + n := ⟨p - lo, by omega⟩
    have hlen : lo + n + 1 - lo = n + 1 := by omega
    rw [foldBit_eq_xor, hcleared (by omega) (by omega), hlen, parityOf_bufWrite_next buf b hp,
      Nat.add_sub_cancel_left]

/-! ## APPENDBIT -/

/-- The bit APPENDBIT stores lies below the position it advances to. -/
theorem bufferWithinPosition_appendBit {s : State} (b : Bool) (h : BufferWithinPosition s)
    (hroom : s.pos.toNat < 59) : BufferWithinPosition (appendBit b s) := by
  obtain ⟨-, hzero⟩ := h
  have hpos := appendBit_pos_toNat b hroom
  refine ⟨by omega, fun i hi => ?_⟩
  rw [appendBit_room b hroom, bufWrite_getLsbD _ _ (by omega) i.isLt, if_neg (by omega)]
  exact hzero i (by omega)

theorem decoderInv_appendBit {s : State} (b : Bool) (h : DecoderInv s) :
    DecoderInv (appendBit b s) := by
  by_cases hroom : s.pos.toNat < 59
  · have hpos := appendBit_pos_toNat b hroom
    have hp : s.pos.toNat < 64 := by omega
    rw [decoderInv_iff_segmentInv] at h ⊢
    obtain ⟨hbuf, hmin, hhour, hdate⟩ := h
    refine ⟨bufferWithinPosition_appendBit b hbuf hroom, ?_⟩
    rw [hpos, appendBit_room b hroom]
    exact ⟨segmentInv_append b (.inl ⟨rfl, rfl⟩) hp hmin,
      segmentInv_append b (.inr (.inl ⟨rfl, rfl⟩)) hp hhour,
      segmentInv_append b (.inr (.inr ⟨rfl, rfl⟩)) hp hdate⟩
  · rwa [appendBit_full b (by omega)]

/-! ## The empty assembler, and the updates that leave the assembler alone -/

/-- With nothing appended there is nothing to keep: R127's and R36's state meets the invariant. -/
theorem decoderInv_of_assemblerEmpty {s : State} (h : AssemblerEmpty s) : DecoderInv s := by
  obtain ⟨hbuf, hpos, -, -, -, -⟩ := h
  have hzero : s.pos.toNat = 0 := by simp [hpos]
  refine ⟨⟨by omega, fun i _ => ?_⟩, ⟨?_, ?_, ?_⟩, ?_, ?_, ?_⟩
  · simp [hbuf]
  all_goals omega

theorem assemblerEmpty_resetTo (p : Config.ResetParams) : AssemblerEmpty (State.resetTo p) :=
  ⟨rfl, rfl, rfl, rfl, rfl, rfl⟩

theorem assemblerEmpty_applyReset (rest : List HostInput) (s : State) :
    AssemblerEmpty (applyReset rest s) := ⟨rfl, rfl, rfl, rfl, rfl, rfl⟩

theorem assemblerEmpty_clearAssembler (s : State) : AssemblerEmpty (clearAssembler s) :=
  ⟨rfl, rfl, rfl, rfl, rfl, rfl⟩

/-- Whether or not it emits, a minute boundary leaves the assembler empty (R127). -/
theorem assemblerEmpty_minuteBoundary (ts : TsWord) (s : State) :
    AssemblerEmpty (minuteBoundary ts s) := by
  rw [minuteBoundary_eq]
  split
  · exact assemblerEmpty_clearAssembler s
  · exact assemblerEmpty_clearAssembler s

theorem decoderInv_recordSample {s : State} (level : Bool) (ts : TsWord) (h : DecoderInv s) :
    DecoderInv (recordSample level ts s) := h

theorem decoderInv_deliverResult {s : State} (x : ResultWord) (h : DecoderInv s) :
    DecoderInv (deliverResult x s) := h

theorem decoderInv_countDraw {s : State} (h : DecoderInv s) : DecoderInv (countDraw s) := h

theorem decoderInv_openTransaction {s : State} (rest : List HostInput) (h : DecoderInv s) :
    DecoderInv (openTransaction rest s) := h

/-! ## Operations and steps -/

theorem decoderInv_execSample {level : Bool} {ts : TsWord} {s t : State} (h : DecoderInv s)
    (ht : execSample level ts s = .next t) : DecoderInv t := by
  obtain ⟨-, rfl⟩ | ⟨-, -, rfl⟩ | ⟨-, -, -, rfl⟩ | ⟨-, -, -, rfl⟩ := execSample_cases ht
  · exact h
  · exact decoderInv_recordSample _ _ (decoderInv_appendBit _ h)
  · exact decoderInv_recordSample _ _
      (decoderInv_of_assemblerEmpty (assemblerEmpty_minuteBoundary ts s))
  · exact decoderInv_recordSample _ _ h

theorem decoderInv_execC2t {r : CalendarRecord} {s t : State} (h : DecoderInv s)
    (ht : execC2t r s = .next t) : DecoderInv t := by
  obtain ⟨_, -, rfl⟩ | ⟨-, rfl⟩ := execC2t_cases ht
  · exact decoderInv_deliverResult _ h
  · exact decoderInv_countDraw (decoderInv_deliverResult _ h)

theorem decoderInv_exec {i : Instr} {s t : State} (h : DecoderInv s) (ht : exec i s = .next t) :
    DecoderInv t := by
  cases i with
  | sample level ts => exact decoderInv_execSample h ht
  | fdec frame => cases ht; exact decoderInv_deliverResult _ h
  | t2c t dst => cases ht; exact decoderInv_deliverResult _ h
  | c2t r => exact decoderInv_execC2t h ht
  | appendBit b => cases ht; exact decoderInv_appendBit b h
  | conclude => cases ht; exact decoderInv_of_assemblerEmpty (assemblerEmpty_clearAssembler s)

theorem decoderInv_step {s t : State} (h : DecoderInv s) (ht : step s = .next t) :
    DecoderInv t := by
  obtain ⟨-, rfl⟩ | ⟨rest, -, rfl⟩ | ⟨_, rest, _, -, -, hexec⟩ | ⟨_, rest, _, -, -, rfl⟩ :=
    step_cases ht
  · exact decoderInv_openTransaction [] h
  · exact decoderInv_of_assemblerEmpty (assemblerEmpty_applyReset rest s)
  · exact decoderInv_exec (decoderInv_openTransaction rest h) hexec
  · exact decoderInv_openTransaction rest h

/-- Settles O30: a step either starts or clears the assembler, or performs an operation, and of those
only APPENDBIT writes it otherwise. -/
theorem invariantKeptByEveryStep : Obligations.InvariantKeptByEveryStep :=
  ⟨fun _ _ h ht => decoderInv_step h ht, fun _ _ _ h ht => decoderInv_exec h ht⟩

/-! ## Reset -/

/-- Settles O29: reset leaves the assembler empty. -/
theorem invariantHoldsAtReset : Obligations.InvariantHoldsAtReset := fun p =>
  decoderInv_of_assemblerEmpty (assemblerEmpty_resetTo p)

/-- Settles O1: the assembler is empty after reset, and the previous sample is the parameters. -/
theorem resetClearsEveryRegister : Obligations.ResetClearsEveryRegister := by
  refine ⟨fun p => ?_, rfl⟩
  obtain ⟨hbuf, hpos, hrun, hmin, hhour, hdate⟩ := assemblerEmpty_resetTo p
  exact ⟨hbuf, hpos, hrun, hmin, hhour, hdate, rfl, rfl⟩

/-! ## The converter commands -/

/-- C2T of a record whose month has a table entry (R182). -/
theorem execC2t_of_some {r : CalendarRecord} {T : Int} (s : State)
    (h : secondsOfRecord r = some T) :
    execC2t r s = .next (deliverResult (timeResult (trunc64 T)) s) := by
  rw [execC2t, h]

/-- C2T of a record whose month has none: a free value is drawn (R189). -/
theorem execC2t_of_none {r : CalendarRecord} (s : State) (h : secondsOfRecord r = none) :
    execC2t r s = .next (countDraw (deliverResult (timeResult (freeSeconds s.freeDraws r)) s)) := by
  rw [execC2t, h]

/-- Settles O35: FDEC and T2C are one delivery on the result port, and C2T is one with at most a count
of a free draw. -/
theorem convertersWriteOnlyTheResultPort : Obligations.ConvertersWriteOnlyTheResultPort := by
  refine fun s => ⟨fun f => ⟨recordImage (recordOfFrame f), rfl⟩,
    fun t dst => ⟨recordImage (recordOfTimestamp (sext64 t) dst), rfl⟩, fun r => ?_⟩
  cases h : secondsOfRecord r with
  | some T => exact ⟨timeResult (trunc64 T), s.freeDraws, execC2t_of_some s h⟩
  | none => exact ⟨timeResult (freeSeconds s.freeDraws r), s.freeDraws + 1, execC2t_of_none s h⟩

end Sys2Proof.Machine
end

section
/-!
PROOFS (20_memory.md). The exchange of a converter command and a SAMPLE (R61). A converter command is one
write of the result port and the draw counter, and what it writes depends on that counter alone; SAMPLE
neither reads nor writes either, so it commutes with the write and leaves the value written the same.
-/
namespace Sys2Proof.Machine

/-- What a converter command writes: the result port, and the model's own draw counter (log 4). -/
def writeResult (x : ResultWord) (n : Nat) (s : State) : State :=
  { s with res := some x, freeDraws := n }

/-! ## The converter commands as that write -/

/-- Performed in any state, `i` is a write whose values depend on the draw counter alone. -/
def WritesResultFromDraws (i : Instr) : Prop :=
  ∃ (x : Nat → ResultWord) (n : Nat → Nat), ∀ s : State,
    exec i s = .next (writeResult (x s.freeDraws) (n s.freeDraws) s)

theorem writesResultFromDraws_fdec (f : FrameWord) : WritesResultFromDraws (.fdec f) :=
  ⟨fun _ => recordImage (recordOfFrame f), id, fun _ => rfl⟩

theorem writesResultFromDraws_t2c (t : TimeWord) (dst : Bool) :
    WritesResultFromDraws (.t2c t dst) :=
  ⟨fun _ => recordImage (recordOfTimestamp (sext64 t) dst), id, fun _ => rfl⟩

/-- Only the free value of a month outside 0..11 looks at the counter, and advances it (R189). -/
theorem writesResultFromDraws_c2t (r : CalendarRecord) : WritesResultFromDraws (.c2t r) := by
  cases h : secondsOfRecord r with
  | some T => exact ⟨fun _ => timeResult (trunc64 T), id, fun s => execC2t_of_some s h⟩
  | none =>
    exact ⟨fun draw => timeResult (freeSeconds draw r), (· + 1), fun s => execC2t_of_none s h⟩

/-! ## SAMPLE beside that write -/

theorem appendBit_writeResult (b : Bool) (x : ResultWord) (n : Nat) (s : State) :
    appendBit b (writeResult x n s) = writeResult x n (appendBit b s) := by
  by_cases hroom : s.pos.toNat < 59
  · rw [appendBit_room b hroom, appendBit_room (s := writeResult x n s) b hroom]
    rfl
  · have hfull : 59 ≤ s.pos.toNat := Nat.not_lt.mp hroom
    rw [appendBit_full b hfull, appendBit_full (s := writeResult x n s) b hfull]

theorem minuteBoundary_writeResult (ts : TsWord) (x : ResultWord) (n : Nat) (s : State) :
    minuteBoundary ts (writeResult x n s) = writeResult x n (minuteBoundary ts s) := by
  have hok : concludeOk (writeResult x n s) = concludeOk s := rfl
  rw [minuteBoundary_eq, minuteBoundary_eq, hok]
  split
  · rfl
  · rfl

theorem minuteBoundary_freeDraws (ts : TsWord) (s : State) :
    (minuteBoundary ts s).freeDraws = s.freeDraws := by
  rw [minuteBoundary_eq]
  split
  · rfl
  · rfl

/-- SAMPLE completes in every state (60_exceptions.md R205). -/
theorem execSample_total (level : Bool) (ts : TsWord) (s : State) :
    ∃ t, execSample level ts s = .next t := by
  cases hp : s.prevLevel <;> cases level
  · exact ⟨_, execSample_repeat ts hp⟩
  · exact ⟨_, execSample_rising ts hp⟩
  · by_cases hl : 1200 ≤ elapsedMs s.prevTs ts
    · exact ⟨_, execSample_boundary hp hl⟩
    · exact ⟨_, execSample_falling hp (Nat.not_le.mp hl)⟩
  · exact ⟨_, execSample_repeat ts hp⟩

theorem execSample_freeDraws {level : Bool} {ts : TsWord} {s t : State}
    (h : execSample level ts s = .next t) : t.freeDraws = s.freeDraws := by
  obtain ⟨-, rfl⟩ | ⟨-, -, rfl⟩ | ⟨-, -, -, rfl⟩ | ⟨-, -, -, rfl⟩ := execSample_cases h
  · rfl
  · obtain ⟨-, -, -, -, -, -, hdraws⟩ :=
      appendBit_frame (decide (170 ≤ elapsedMs s.prevTs ts)) s
    exact hdraws
  · exact minuteBoundary_freeDraws ts s
  · rfl

/-- The result port and the draw counter are no input of SAMPLE: it does the same beside any values of
them, and keeps those values. -/
theorem execSample_writeResult {level : Bool} {ts : TsWord} {s t : State} (x : ResultWord) (n : Nat)
    (h : execSample level ts s = .next t) :
    execSample level ts (writeResult x n s) = .next (writeResult x n t) := by
  obtain ⟨hsame, rfl⟩ | ⟨rfl, hp, rfl⟩ | ⟨rfl, hp, hl, rfl⟩ | ⟨rfl, hp, hl, rfl⟩ :=
    execSample_cases h
  · exact execSample_repeat ts hsame.symm
  · rw [execSample_rising ts (s := writeResult x n s) hp, appendBit_writeResult]
    rfl
  · rw [execSample_boundary (s := writeResult x n s) hp hl, minuteBoundary_writeResult]
    rfl
  · exact execSample_falling (s := writeResult x n s) hp hl

/-- An operation that only writes the result, from the draw counter, can be exchanged with SAMPLE. -/
theorem exec_sample_comm {i : Instr} (hi : WritesResultFromDraws i) (s : State) (level : Bool)
    (ts : TsWord) :
    ∃ a b u, exec i s = .next a ∧ exec (.sample level ts) s = .next b
      ∧ exec (.sample level ts) a = .next u ∧ exec i b = .next u ∧ u.res = a.res ∧ u.frm = b.frm := by
  obtain ⟨x, n, hexec⟩ := hi
  obtain ⟨b, hb⟩ := execSample_total level ts s
  have hib : exec i b = .next (writeResult (x s.freeDraws) (n s.freeDraws) b) := by
    rw [hexec b, execSample_freeDraws hb]
  exact ⟨_, b, _, hexec s, hb, execSample_writeResult _ _ hb, hib, rfl, rfl⟩

/-- Settles O36: each converter command is a write that SAMPLE commutes with. -/
theorem convertersCommuteWithSample : Obligations.ConvertersCommuteWithSample := by
  intro s i level ts hi
  obtain ⟨f, rfl⟩ | ⟨t, dst, rfl⟩ | ⟨r, rfl⟩ := hi
  · exact exec_sample_comm (writesResultFromDraws_fdec f) s level ts
  · exact exec_sample_comm (writesResultFromDraws_t2c t dst) s level ts
  · exact exec_sample_comm (writesResultFromDraws_c2t r) s level ts

end Sys2Proof.Machine
end

section
/-!
PROOFS (30_encoding.md). The command word read by its `op` field, its operands as quotients of the word,
and the two round trips of R71 to R76. Ignored bits (R77) follow from the round trips: two words whose
re-encodings agree name one operation. Then a minute (R93): its expansion, and its run, in which each
second's rising edge appends one bit and the edge after the silent second concludes.
-/
namespace Sys2Proof

/-! ## What a word decodes to -/

/-- The decoder's answer for each value of `op` (R72). -/
theorem decode_op_cases (w : CommandWord) :
    (w.toNat % 8 = 1 ∧ decode w = .ok (.sample (w.getLsbD 3) (w.extractLsb' 4 32)))
      ∨ (w.toNat % 8 = 2 ∧ decode w = .ok (.fdec (w.extractLsb' 3 64)))
      ∨ (w.toNat % 8 = 3 ∧ decode w = .ok (.t2c (w.extractLsb' 4 64) (w.getLsbD 3)))
      ∨ (w.toNat % 8 = 4 ∧ decode w = .ok (.c2t (recordOfImage (w.extractLsb' 3 257))))
      ∨ ((w.toNat % 8 = 0 ∨ w.toNat % 8 = 5 ∨ w.toNat % 8 = 6 ∨ w.toNat % 8 = 7)
          ∧ decode w = .error (.reservedOp (opField w))) := by
  obtain h | h | h | h | h : w.toNat % 8 = 1 ∨ w.toNat % 8 = 2 ∨ w.toNat % 8 = 3 ∨ w.toNat % 8 = 4
      ∨ (w.toNat % 8 = 0 ∨ w.toNat % 8 = 5 ∨ w.toNat % 8 = 6 ∨ w.toNat % 8 = 7) := by omega
  · exact .inl ⟨h, decode_sample h⟩
  · exact .inr (.inl ⟨h, decode_fdec h⟩)
  · exact .inr (.inr (.inl ⟨h, decode_t2c h⟩))
  · exact .inr (.inr (.inr (.inl ⟨h, decode_c2t h⟩)))
  · exact .inr (.inr (.inr (.inr ⟨h, decode_reserved (by omega)⟩)))

/-- Settles O8: the decoder has one answer for each `op`, and the answers differ. -/
theorem opCodesSelectTheOperation : Obligations.OpCodesSelectTheOperation := by
  intro w
  obtain ⟨hop, hd⟩ | ⟨hop, hd⟩ | ⟨hop, hd⟩ | ⟨hop, hd⟩ | ⟨hop, hd⟩ := decode_op_cases w
  case inr.inr.inr.inr =>
    have hne : w.toNat % 8 ≠ 1 ∧ w.toNat % 8 ≠ 2 ∧ w.toNat % 8 ≠ 3 ∧ w.toNat % 8 ≠ 4 := by omega
    simp [hd, hop, hne]
  all_goals simp [hop, hd]

/-! ## Operands as quotients of the word -/

theorem decode_sample_div {w : CommandWord} (h : w.toNat % 8 = 1) :
    decode w = .ok (.sample (decide (w.toNat / 8 % 2 = 1)) (BitVec.ofNat 32 (w.toNat / 16))) := by
  rw [decode_sample h, getLsbD_eq_decide_div, extractLsb'_eq_ofNat_div]
  rfl

theorem decode_fdec_div {w : CommandWord} (h : w.toNat % 8 = 2) :
    decode w = .ok (.fdec (BitVec.ofNat 64 (w.toNat / 8))) := by
  rw [decode_fdec h, extractLsb'_eq_ofNat_div]
  rfl

theorem decode_t2c_div {w : CommandWord} (h : w.toNat % 8 = 3) :
    decode w =
      .ok (.t2c (BitVec.ofNat 64 (w.toNat / 16)) (decide (w.toNat / 8 % 2 = 1))) := by
  rw [decode_t2c h, getLsbD_eq_decide_div, extractLsb'_eq_ofNat_div]
  rfl

/-- The image C2T carries is the whole word above `op` (R76). -/
theorem payload_toNat (w : CommandWord) : (w.extractLsb' 3 257).toNat = w.toNat / 8 := by
  rw [BitVec.extractLsb'_toNat, Nat.shiftRight_eq_div_pow]
  have hlt : w.toNat < 8 * 2 ^ 257 := w.isLt
  exact Nat.mod_eq_of_lt (Nat.div_lt_of_lt_mul hlt)

/-- A record field lies three bits higher in the word than in the image. -/
theorem extractLsb'_payload (w : CommandWord) (lo : Nat) :
    (w.extractLsb' 3 257).extractLsb' lo 32 = BitVec.ofNat 32 (w.toNat / 2 ^ (3 + lo)) := by
  rw [extractLsb'_eq_ofNat_div, payload_toNat, Nat.div_div_eq_div_mul, Nat.pow_add]

/-- The flag is the topmost bit of the word, so a quotient with no remainder to take. -/
theorem getLsbD_payload_256 (w : CommandWord) :
    (w.extractLsb' 3 257).getLsbD 256 = decide (w.toNat / 2 ^ 259 = 1) := by
  have hlt : w.toNat < 2 ^ 259 * 2 := w.isLt
  have hmod : w.toNat / 2 ^ 259 % 2 = w.toNat / 2 ^ 259 :=
    Nat.mod_eq_of_lt (Nat.div_lt_of_lt_mul hlt)
  rw [getLsbD_eq_decide_div, payload_toNat, Nat.div_div_eq_div_mul]
  exact congrArg (fun q => decide (q = 1)) hmod

theorem decode_c2t_div {w : CommandWord} (h : w.toNat % 8 = 4) :
    decode w = .ok (.c2t
      { sec := BitVec.ofNat 32 (w.toNat / 2 ^ 3), min := BitVec.ofNat 32 (w.toNat / 2 ^ 35)
        hour := BitVec.ofNat 32 (w.toNat / 2 ^ 67), monthDay := BitVec.ofNat 32 (w.toNat / 2 ^ 99)
        month := BitVec.ofNat 32 (w.toNat / 2 ^ 131), year := BitVec.ofNat 32 (w.toNat / 2 ^ 163)
        weekday := BitVec.ofNat 32 (w.toNat / 2 ^ 195)
        yearDay := BitVec.ofNat 32 (w.toNat / 2 ^ 227)
        isDst := decide (w.toNat / 2 ^ 259 = 1) }) := by
  simp only [decode_c2t h, recordOfImage, extractLsb'_payload, getLsbD_payload_256]

/-! ## The word of each format as an integer -/

/-- A number the longest short format (T2C) can reach fits the port. -/
theorem toNat_ofNat_of_lt_68 {n : Nat} (h : n < 2 ^ 68) : (BitVec.ofNat 260 n).toNat = n := by
  rw [BitVec.toNat_ofNat]
  exact Nat.mod_eq_of_lt (Nat.lt_of_lt_of_le h (Nat.pow_le_pow_right (by decide) (by decide)))

theorem sampleWord_toNat (level : Bool) (ts : TsWord) :
    (BitVec.ofNat 260 (1 + 8 * level.toNat + 16 * ts.toNat)).toNat
      = 1 + 8 * level.toNat + 16 * ts.toNat :=
  toNat_ofNat_of_lt_68 (by have := level.toNat_lt; omega)

theorem fdecWord_toNat (f : FrameWord) :
    (BitVec.ofNat 260 (2 + 8 * f.toNat)).toNat = 2 + 8 * f.toNat :=
  toNat_ofNat_of_lt_68 (by omega)

theorem t2cWord_toNat (t : TimeWord) (dst : Bool) :
    (BitVec.ofNat 260 (3 + 8 * dst.toNat + 16 * t.toNat)).toNat
      = 3 + 8 * dst.toNat + 16 * t.toNat :=
  toNat_ofNat_of_lt_68 (by have := dst.toNat_lt; omega)

theorem c2tWord_toNat (x : ResultWord) :
    (BitVec.ofNat 260 (4 + 8 * x.toNat)).toNat = 4 + 8 * x.toNat := by
  rw [BitVec.toNat_ofNat]
  have hroom : 4 + 8 * x.toNat < 8 * (x.toNat + 1) := by omega
  have htop : 8 * (x.toNat + 1) ≤ 8 * 2 ^ 257 := Nat.mul_le_mul_left 8 x.isLt
  exact Nat.mod_eq_of_lt (Nat.lt_of_lt_of_le hroom htop)

/-- Settles O9: the decoder's operands are quotients of the word, and no format's word is reduced by the
width of the port. -/
theorem operandFieldPositions : Obligations.OperandFieldPositions :=
  ⟨fun _ => ⟨decode_sample_div, decode_fdec_div, decode_t2c_div, decode_c2t_div⟩,
    fun level ts => congrArg some (sampleWord_toNat level ts),
    fun f => congrArg some (fdecWord_toNat f),
    fun t dst => congrArg some (t2cWord_toNat t dst),
    fun r => congrArg some (c2tWord_toNat (recordImage r))⟩

/-! ## Decoding what was encoded -/

theorem decide_toNat_eq_one (b : Bool) : decide (b.toNat = 1) = b := by cases b <;> rfl

theorem decode_sampleWord (level : Bool) (ts : TsWord) :
    decode (BitVec.ofNat 260 (1 + 8 * level.toNat + 16 * ts.toNat)) = .ok (.sample level ts) := by
  have hw := sampleWord_toNat level ts
  have hl := level.toNat_lt
  have hlevel : (1 + 8 * level.toNat + 16 * ts.toNat) / 8 % 2 = level.toNat := by omega
  have hts : (1 + 8 * level.toNat + 16 * ts.toNat) / 16 = ts.toNat := by omega
  rw [decode_sample_div (by omega), hw, hlevel, hts, decide_toNat_eq_one, BitVec.ofNat_toNat,
    BitVec.setWidth_eq]

theorem decode_fdecWord (f : FrameWord) :
    decode (BitVec.ofNat 260 (2 + 8 * f.toNat)) = .ok (.fdec f) := by
  have hw := fdecWord_toNat f
  have hf : (2 + 8 * f.toNat) / 8 = f.toNat := by omega
  rw [decode_fdec_div (by omega), hw, hf, BitVec.ofNat_toNat, BitVec.setWidth_eq]

theorem decode_t2cWord (t : TimeWord) (dst : Bool) :
    decode (BitVec.ofNat 260 (3 + 8 * dst.toNat + 16 * t.toNat)) = .ok (.t2c t dst) := by
  have hw := t2cWord_toNat t dst
  have hd := dst.toNat_lt
  have hdst : (3 + 8 * dst.toNat + 16 * t.toNat) / 8 % 2 = dst.toNat := by omega
  have ht : (3 + 8 * dst.toNat + 16 * t.toNat) / 16 = t.toNat := by omega
  rw [decode_t2c_div (by omega), hw, hdst, ht, decide_toNat_eq_one, BitVec.ofNat_toNat,
    BitVec.setWidth_eq]

theorem decode_c2tWord (r : CalendarRecord) :
    decode (BitVec.ofNat 260 (4 + 8 * (recordImage r).toNat)) = .ok (.c2t r) := by
  have hw := c2tWord_toNat (recordImage r)
  have himage : (BitVec.ofNat 260 (4 + 8 * (recordImage r).toNat)).extractLsb' 3 257
      = recordImage r :=
    BitVec.eq_of_toNat_eq (by rw [payload_toNat, hw]; omega)
  rw [decode_c2t (by omega), himage, recordOfImage_recordImage]

/-- An operation's word, if it has one, decodes to the operation. -/
theorem decode_of_encode {i : Instr} {w : CommandWord} (h : encode i = some w) :
    decode w = .ok i := by
  cases i with
  | sample level ts => cases h; exact decode_sampleWord level ts
  | fdec f => cases h; exact decode_fdecWord f
  | t2c t dst => cases h; exact decode_t2cWord t dst
  | c2t r => cases h; exact decode_c2tWord r
  | appendBit b => cases h
  | conclude => cases h

/-- Exactly the operations that can be issued have a word (R92, R94). -/
theorem encode_isSome (i : Instr) : (encode i).isSome = i.wellFormed := by
  cases i with
  | sample level ts => exact Laws.EncodeIssuable.sample level ts
  | fdec f => exact Laws.EncodeIssuable.fdec f
  | t2c t dst => exact Laws.EncodeIssuable.t2c t dst
  | c2t r => exact Laws.EncodeIssuable.c2t r
  | appendBit b => exact Laws.EncodeIssuable.appendBit b
  | conclude => exact Laws.EncodeIssuable.conclude

/-- Settles O10: what can be issued has a word, and every word decodes to what it was made from. -/
theorem decodeOfEncodeIsTheOperation : Obligations.DecodeOfEncodeIsTheOperation := by
  refine fun i => ⟨fun hwf => ?_, fun hwf => ?_⟩
  · obtain ⟨w, hw⟩ := Option.isSome_iff_exists.mp ((encode_isSome i).trans hwf)
    exact ⟨w, hw, decode_of_encode hw⟩
  · have hnone : ¬ (encode i).isSome = true := by rw [encode_isSome, hwf]; exact Bool.false_ne_true
    exact Option.not_isSome_iff_eq_none.mp hnone

/-! ## Encoding what was decoded -/

/-- A quotient's lowest bit, as the encoder counts it. -/
theorem toNat_decide_mod_two (n : Nat) : (decide (n % 2 = 1)).toNat = n % 2 := by
  obtain h | h := Nat.mod_two_eq_zero_or_one n <;> simp [h]

theorem encode_of_decode_sample {w : CommandWord} {level : Bool} {ts : TsWord}
    (h : w.toNat % 8 = 1) (hd : decode w = .ok (.sample level ts)) :
    encode (.sample level ts) = some (BitVec.ofNat 260 (w.toNat % 2 ^ 36)) := by
  rw [decode_sample_div h] at hd
  cases hd
  have hword : 1 + 8 * (w.toNat / 8 % 2) + 16 * (w.toNat / 16 % 2 ^ 32) = w.toNat % 2 ^ 36 := by
    omega
  rw [encode, toNat_decide_mod_two, BitVec.toNat_ofNat, hword]

theorem encode_of_decode_fdec {w : CommandWord} {f : FrameWord}
    (h : w.toNat % 8 = 2) (hd : decode w = .ok (.fdec f)) :
    encode (.fdec f) = some (BitVec.ofNat 260 (w.toNat % 2 ^ 67)) := by
  rw [decode_fdec_div h] at hd
  cases hd
  have hword : 2 + 8 * (w.toNat / 8 % 2 ^ 64) = w.toNat % 2 ^ 67 := by omega
  rw [encode, BitVec.toNat_ofNat, hword]

theorem encode_of_decode_t2c {w : CommandWord} {t : TimeWord} {dst : Bool}
    (h : w.toNat % 8 = 3) (hd : decode w = .ok (.t2c t dst)) :
    encode (.t2c t dst) = some (BitVec.ofNat 260 (w.toNat % 2 ^ 68)) := by
  rw [decode_t2c_div h] at hd
  cases hd
  have hword : 3 + 8 * (w.toNat / 8 % 2) + 16 * (w.toNat / 16 % 2 ^ 64) = w.toNat % 2 ^ 68 := by
    omega
  rw [encode, toNat_decide_mod_two, BitVec.toNat_ofNat, hword]

theorem encode_of_decode_c2t {w : CommandWord} {r : CalendarRecord}
    (h : w.toNat % 8 = 4) (hd : decode w = .ok (.c2t r)) : encode (.c2t r) = some w := by
  rw [decode_c2t h] at hd
  cases hd
  have hword : 4 + 8 * (w.toNat / 8) = w.toNat := by omega
  rw [encode, recordImage_recordOfImage, payload_toNat, hword, BitVec.ofNat_toNat,
    BitVec.setWidth_eq]

/-- Settles O11: the encoder puts back every bit the decoder read, and 0 elsewhere. -/
theorem encodeOfDecodeClearsOnlyIgnoredBits : Obligations.EncodeOfDecodeClearsOnlyIgnoredBits := by
  intro w
  obtain ⟨hsample, hfdec, ht2c, hc2t, -⟩ := opCodesSelectTheOperation w
  exact ⟨fun level ts hd => encode_of_decode_sample (hsample.mpr ⟨level, ts, hd⟩) hd,
    fun f hd => encode_of_decode_fdec (hfdec.mpr ⟨f, hd⟩) hd,
    fun t dst hd => encode_of_decode_t2c (ht2c.mpr ⟨t, dst, hd⟩) hd,
    fun r hd => encode_of_decode_c2t (hc2t.mpr ⟨r, hd⟩) hd⟩

/-! ## Words that name one operation -/

theorem encode_injective {i j : Instr} {w : CommandWord} (hi : encode i = some w)
    (hj : encode j = some w) : i = j :=
  Except.ok.inj ((decode_of_encode hi).symm.trans (decode_of_encode hj))

/-- Two words whose operations have one re-encoding decode to one operation. -/
theorem decode_ok_of_encode_eq {v w x : CommandWord} {i j : Instr} (hv : decode v = .ok j)
    (hw : decode w = .ok i) (hj : encode j = some x) (hi : encode i = some x) :
    ∃ k, decode v = .ok k ∧ decode w = .ok k :=
  ⟨j, hv, encode_injective hi hj ▸ hw⟩

/-- Words that agree on `op` and on the operands decode to one operation (R77). -/
theorem decode_ok_of_equal_operands {v w : CommandWord}
    (h : (w.toNat % 8 = 1 ∧ v.toNat % 2 ^ 36 = w.toNat % 2 ^ 36)
      ∨ (w.toNat % 8 = 2 ∧ v.toNat % 2 ^ 67 = w.toNat % 2 ^ 67)
      ∨ (w.toNat % 8 = 3 ∧ v.toNat % 2 ^ 68 = w.toNat % 2 ^ 68)) :
    ∃ i, decode v = .ok i ∧ decode w = .ok i := by
  obtain ⟨hw, heq⟩ | ⟨hw, heq⟩ | ⟨hw, heq⟩ := h
  · have hv : v.toNat % 8 = 1 := by omega
    exact decode_ok_of_encode_eq (decode_sample hv) (decode_sample hw)
      (heq ▸ encode_of_decode_sample hv (decode_sample hv))
      (encode_of_decode_sample hw (decode_sample hw))
  · have hv : v.toNat % 8 = 2 := by omega
    exact decode_ok_of_encode_eq (decode_fdec hv) (decode_fdec hw)
      (heq ▸ encode_of_decode_fdec hv (decode_fdec hv))
      (encode_of_decode_fdec hw (decode_fdec hw))
  · have hv : v.toNat % 8 = 3 := by omega
    exact decode_ok_of_encode_eq (decode_t2c hv) (decode_t2c hw)
      (heq ▸ encode_of_decode_t2c hv (decode_t2c hv))
      (encode_of_decode_t2c hw (decode_t2c hw))

end Sys2Proof

namespace Sys2Proof.Machine

/-! ## The step of a command word -/

/-- A step performs the operation of the word the host presents (R70). -/
theorem step_of_decode_ok {s : State} {w : CommandWord} {rest : List HostInput} {i : Instr}
    (hin : s.inputs = .cmd w :: rest) (hd : decode w = .ok i) :
    step s = exec i (openTransaction rest s) := by
  simp only [step, hin, hd]

/-- A step of a rejected word only takes it (R78). -/
theorem step_of_decode_error {s : State} {w : CommandWord} {rest : List HostInput} {e : DecodeError}
    (hin : s.inputs = .cmd w :: rest) (hd : decode w = .error e) :
    step s = .next (openTransaction rest s) := by
  simp only [step, hin, hd, acceptReserved]

/-- Settles O4. -/
theorem stepRunsTheDecodedCommand : Obligations.StepRunsTheDecodedCommand :=
  fun _ _ _ _ hin hd => step_of_decode_ok hin hd

/-- A placed word's operation is what the decoder reads from it. -/
theorem decode_tableWord {nbits w : Nat} {i : Instr} (h : decodeTableWord nbits w = some i) :
    decode (tableWord nbits w) = .ok i := by
  unfold decodeTableWord at h
  split at h
  · next hd => rw [hd, Option.some.inj h]
  · cases h

/-- Settles O5: the placed word is the head of what the host presents, and taking it leaves the rest. -/
theorem placedWordIsTheNextCommand : Obligations.PlacedWordIsTheNextCommand :=
  fun s nbits w _ h =>
    step_of_decode_ok (presentCommand_inputs s (tableWord nbits w)) (decode_tableWord h)

/-- Settles O6: the decoder's last branch, and the step of a rejected word. -/
theorem reservedOpHasNoEffect : Obligations.ReservedOpHasNoEffect := by
  intro s w rest hop
  have hd : decode w = .error (.reservedOp (opField w)) := decode_reserved (by omega)
  have hfield : opField w = BitVec.ofNat 3 w.toNat := by
    rw [opField, extractLsb'_eq_ofNat_div, Nat.pow_zero, Nat.div_one]
  exact ⟨hfield ▸ hd, step_of_decode_error rfl hd⟩

/-! ## Ignored record fields and frame bits -/

/-- A sub-field depends on its own bits only (R84). -/
theorem subField_congr {f g : FrameWord} {lo n : Nat}
    (h : ∀ j, lo ≤ j → j < lo + n → f.getLsbD j = g.getLsbD j) :
    subField f lo n = subField g lo n := by
  apply Nat.eq_of_testBit_eq
  intro j
  simp only [subField, Nat.testBit_mod_two_pow, Nat.testBit_shiftRight]
  by_cases hj : j < n
  · have hbit : f.toNat.testBit (lo + j) = g.toNat.testBit (lo + j) := h _ (by omega) (by omega)
    rw [hbit]
  · simp [hj]

/-- FDEC reads bits 17, 27:21, 34:29 and 57:36 of the frame only (R83). -/
theorem recordOfFrame_congr {f g : FrameWord}
    (h : ∀ i : Fin 64, i.val = 17 ∨ (21 ≤ i.val ∧ i.val ≤ 27) ∨ (29 ≤ i.val ∧ i.val ≤ 34)
      ∨ (36 ≤ i.val ∧ i.val ≤ 57) → f.getLsbD i.val = g.getLsbD i.val) :
    recordOfFrame f = recordOfFrame g := by
  have hfield {lo n : Nat} (hr : (21 ≤ lo ∧ lo + n ≤ 28) ∨ (29 ≤ lo ∧ lo + n ≤ 35)
      ∨ (36 ≤ lo ∧ lo + n ≤ 58)) : subField f lo n = subField g lo n :=
    subField_congr fun j _ _ => h ⟨j, by omega⟩ (by dsimp only; omega)
  have hmin : subField f 21 7 = subField g 21 7 := hfield (by omega)
  have hhour : subField f 29 6 = subField g 29 6 := hfield (by omega)
  have hmonthDay : subField f 36 6 = subField g 36 6 := hfield (by omega)
  have hweekday : subField f 42 3 = subField g 42 3 := hfield (by omega)
  have hmonth : subField f 45 5 = subField g 45 5 := hfield (by omega)
  have hyear : subField f 50 8 = subField g 50 8 := hfield (by omega)
  have hdst : f.getLsbD 17 = g.getLsbD 17 := h 17 (.inl rfl)
  simp only [recordOfFrame, hmin, hhour, hmonthDay, hweekday, hmonth, hyear, hdst]

/-- C2T computes from six fields: neither the seconds nor the free value looks at the others (R183). -/
theorem execC2t_ignores (r : CalendarRecord) (wd yd : FieldWord) (dst : Bool) (s : State) :
    execC2t { r with weekday := wd, yearDay := yd, isDst := dst } s = execC2t r s := by
  have hseconds : secondsOfRecord { r with weekday := wd, yearDay := yd, isDst := dst }
      = secondsOfRecord r := rfl
  cases h : secondsOfRecord r with
  | some T => rw [execC2t_of_some s h, execC2t_of_some s (hseconds.trans h)]
  | none => rw [execC2t_of_none s h, execC2t_of_none s (hseconds.trans h)]; rfl

/-- Settles O12: ignored payload bits do not reach the decoded operation, nor ignored fields and frame
bits its result. -/
theorem ignoredBitsHaveNoEffect : Obligations.IgnoredBitsHaveNoEffect := by
  refine ⟨fun s rest v w h => ?_, fun s r wd yd dst => execC2t_ignores r wd yd dst s,
    fun s f g h => ?_⟩
  · obtain ⟨i, hv, hw⟩ := decode_ok_of_equal_operands h
    rw [step_of_decode_ok rfl hv, step_of_decode_ok rfl hw]
    rfl
  · show execFdec f s = execFdec g s
    rw [execFdec, execFdec, recordOfFrame_congr h]

/-! ## The commands of a minute -/

/-- The time of second `k` of a minute from `t0` (R93). -/
def secondStart (t0 : TsWord) (k : Nat) : TsWord := t0 + BitVec.ofNat 32 (1000 * k)

theorem secondStart_zero (t0 : TsWord) : secondStart t0 0 = t0 := BitVec.add_zero t0

/-- How long the pulse of a bit holds the line low (R93). -/
def pulseWidth (b : Bool) : TsWord := if b then 200 else 100

/-- The falling edge of second `k`. -/
def fallOf (t0 : TsWord) (k : Nat) : Instr := .sample false (secondStart t0 k)

/-- The rising edge of second `k`, whose time carries the bit. -/
def riseOf (t0 : TsWord) (f : FrameWord) (k : Nat) : Instr :=
  .sample true (secondStart t0 k + pulseWidth (f.getLsbD k))

theorem minuteSecond_eq (t0 : TsWord) (f : FrameWord) (k : Nat) :
    minuteSecond t0 f k = [fallOf t0 k, riseOf t0 f k] := by
  unfold minuteSecond riseOf
  cases f.getLsbD k <;> rfl

/-- A list of pairs, one for each number below `n`: the `k`-th pair, and the length. -/
theorem flatMap_range_pairs {α : Type} {g : Nat → List α} {a b : Nat → α}
    (hg : ∀ k, g k = [a k, b k]) (n : Nat) :
    ((List.range n).flatMap g).length = 2 * n
      ∧ ∀ k < n, ((List.range n).flatMap g)[2 * k]? = some (a k)
        ∧ ((List.range n).flatMap g)[2 * k + 1]? = some (b k) := by
  induction n with
  | zero => exact ⟨rfl, fun k hk => absurd hk k.not_lt_zero⟩
  | succ n ih =>
    obtain ⟨hlen, hget⟩ := ih
    have hsplit : (List.range (n + 1)).flatMap g = (List.range n).flatMap g ++ [a n, b n] := by
      rw [List.range_succ, List.flatMap_append, List.flatMap_singleton, hg]
    rw [hsplit]
    refine ⟨by simp [hlen]; omega, fun k hk => ?_⟩
    obtain hlt | rfl : k < n ∨ k = n := by omega
    · rw [List.getElem?_append_left (by omega), List.getElem?_append_left (by omega)]
      exact hget k hlt
    · rw [List.getElem?_append_right (by omega), List.getElem?_append_right (by omega), hlen,
        Nat.sub_self, Nat.add_sub_cancel_left]
      exact ⟨rfl, rfl⟩

/-- Settles O14: a minute is a list of pairs, each second's falling and rising edge. -/
theorem minuteExpandsToItsPulses : Obligations.MinuteExpandsToItsPulses := by
  refine ⟨fun _ _ => rfl, fun _ => ⟨rfl, rfl⟩, fun t0 f => ?_⟩
  exact flatMap_range_pairs (minuteSecond_eq t0 f) 59

/-! ## SAMPLE commands the host presents -/

theorem minuteBoundary_inputs (ts : TsWord) (s : State) :
    (minuteBoundary ts s).inputs = s.inputs := by
  rw [minuteBoundary_eq]
  split
  · rfl
  · rfl

/-- SAMPLE leaves what the host presents next alone. -/
theorem execSample_inputs {level : Bool} {ts : TsWord} {s t : State}
    (h : execSample level ts s = .next t) : t.inputs = s.inputs := by
  obtain ⟨-, rfl⟩ | ⟨-, -, rfl⟩ | ⟨-, -, -, rfl⟩ | ⟨-, -, -, rfl⟩ := execSample_cases h
  · rfl
  · obtain ⟨-, -, -, -, hinputs, -, -⟩ := appendBit_frame (decide (170 ≤ elapsedMs s.prevTs ts)) s
    exact hinputs
  · exact minuteBoundary_inputs ts s
  · rfl

/-- The next step takes `s` to `t`, and the host then presents `is` and after it `rest`. -/
structure TakesCommand (s t : State) (is : List Instr) (rest : List HostInput) : Prop where
  stepsTo : step s = .next t
  presents : t.inputs = commandInputs is ++ rest

theorem runSteps_of_takesCommand {s t : State} {is : List Instr} {rest : List HostInput}
    (h : TakesCommand s t is rest) (n : Nat) : runSteps (n + 1) s = runSteps n t := by
  simp only [runSteps, h.stepsTo]

/-- A SAMPLE at the head of what the host presents is the next step. -/
theorem takesCommand_sample {s t : State} {level : Bool} {ts : TsWord} {is : List Instr}
    {rest : List HostInput} (hin : s.inputs = commandInputs (.sample level ts :: is) ++ rest)
    (hexec : execSample level ts (openTransaction (commandInputs is ++ rest) s) = .next t) :
    TakesCommand s t is rest :=
  ⟨(step_of_decode_ok hin (decode_sampleWord level ts)).trans hexec, execSample_inputs hexec⟩

/-! ## The assembler in the course of a minute -/

/-- The assembler holds the first `k` bits of `f` and nothing else. -/
structure HoldsBits (f : FrameWord) (k : Nat) (s : State) : Prop where
  pos : s.pos.toNat = k
  buf : ∀ i < k, s.buf.getLsbD i = f.getLsbD i
  inv : DecoderInv s

theorem holdsBits_zero {s : State} (f : FrameWord) (h : AssemblerEmpty s) : HoldsBits f 0 s where
  pos := by obtain ⟨-, hpos, -⟩ := h; rw [hpos]; rfl
  buf := fun i hi => absurd hi i.not_lt_zero
  inv := decoderInv_of_assemblerEmpty h

theorem holdsBits_appendBit {f : FrameWord} {k : Nat} {s : State} (h : HoldsBits f k s)
    (hk : k < 59) : HoldsBits f (k + 1) (appendBit (f.getLsbD k) s) := by
  obtain ⟨rfl, hbuf, hinv⟩ := h
  refine ⟨appendBit_pos_toNat _ hk, fun i hi => ?_, decoderInv_appendBit _ hinv⟩
  rw [appendBit_room _ hk, bufWrite_getLsbD _ _ (by omega) (by omega)]
  split
  · next heq => rw [heq]
  · exact hbuf i (by omega)

/-- With 59 bits the buffer is the frame. -/
theorem buf_of_holdsBits {f : FrameWord} {s : State} (h : HoldsBits f 59 s)
    (hf : f.toNat < 2 ^ 59) : s.buf = f := by
  obtain ⟨hpos, hbuf, ⟨-, hzero⟩, -⟩ := h
  apply BitVec.eq_of_getLsbD_eq
  intro i hi
  by_cases hlow : i < 59
  · exact hbuf i hlow
  · have hhigh : f.getLsbD i = false :=
      Nat.testBit_lt_two_pow (Nat.lt_of_lt_of_le hf (Nat.pow_le_pow_right (by decide) (by omega)))
    rw [hhigh]
    exact hzero ⟨i, hi⟩ (by rw [hpos]; exact Nat.not_lt.mp hlow)

/-- A segment's latch equals its parity bit exactly when the whole segment is even (R126). -/
theorem eq_parityBit_iff {f : FrameWord} {lo n : Nat} {latch : Bool}
    (h : latch = parityOf f lo n) :
    latch = f.getLsbD (lo + n) ↔ (!parityOf f lo (n + 1)) = true := by
  rw [h, parityOf]
  cases parityOf f lo n <;> cases f.getLsbD (lo + n) <;> decide

/-- Under the invariant, with 59 bits, CONCLUDE's checks are the parities of the buffer. -/
theorem concludeOk_eq_framePasses {s : State} (hinv : DecoderInv s) (hpos : s.pos.toNat = 59) :
    concludeOk s = framePasses s.buf := by
  obtain ⟨-, ⟨hmin, hhour, hdate⟩, -⟩ := hinv
  rw [Bool.eq_iff_iff, concludeOk_iff, framePasses, Bool.and_eq_true, Bool.and_eq_true, and_assoc,
    eq_parityBit_iff (hmin (by omega)), eq_parityBit_iff (hhour (by omega)),
    eq_parityBit_iff (hdate (by omega))]
  exact and_iff_right hpos

/-! ## The edges of a minute -/

/-- The low phase of a pulse is read as the bit it was made from (R113). -/
theorem bit_of_pulseWidth (t : TsWord) (b : Bool) :
    decide (170 ≤ elapsedMs t (t + pulseWidth b)) = b := by
  rw [elapsedMs, add_sub_cancel_left]
  cases b <;> decide

/-- From a rising edge to the next second's falling edge is less than the sync gap (R112). -/
theorem elapsedMs_next_second (t0 : TsWord) (k : Nat) (b : Bool) :
    elapsedMs (secondStart t0 k + pulseWidth b) (secondStart t0 (k + 1)) < 1200 := by
  have hnext : secondStart t0 (k + 1) = secondStart t0 k + 1000 := by
    rw [secondStart, Nat.mul_succ, BitVec.ofNat_add, ← add_assoc]
    rfl
  rw [elapsedMs, hnext, add_sub_add_left_eq_sub]
  cases b <;> decide

/-- Over the silent second 59 it is not. -/
theorem elapsedMs_silent_second (t0 : TsWord) (b : Bool) :
    1200 ≤ elapsedMs (secondStart t0 58 + pulseWidth b) (t0 + 60000) := by
  have hlast : secondStart t0 58 = t0 + 58000 := rfl
  rw [elapsedMs, hlast, add_assoc, add_sub_add_left_eq_sub]
  cases b <;> decide

/-- The elapsed time as R111 writes it out. -/
theorem elapsedMs_eq_mod (prev ts : TsWord) :
    elapsedMs prev ts = (ts.toNat + 2 ^ 32 - prev.toNat) % 2 ^ 32 := by
  rw [elapsedMs, BitVec.toNat_sub]
  congr 1
  omega

/-- The state after an edge of the line at `ts`: the previous sample is that edge, and `k` bits of `f`
are in the assembler. -/
structure AfterEdge (f : FrameWord) (k : Nat) (level : Bool) (ts : TsWord) (s : State) : Prop where
  bits : HoldsBits f k s
  prevLevel : s.prevLevel = level
  prevTs : s.prevTs = ts

theorem holdsBits_openTransaction {f : FrameWord} {k : Nat} {s : State} (is : List HostInput)
    (h : HoldsBits f k s) : HoldsBits f k (openTransaction is s) := ⟨h.pos, h.buf, h.inv⟩

theorem afterEdge_recordSample {f : FrameWord} {k : Nat} {s : State} (level : Bool) (ts : TsWord)
    (h : HoldsBits f k s) : AfterEdge f k level ts (recordSample level ts s) :=
  ⟨⟨h.pos, h.buf, h.inv⟩, rfl, rfl⟩

section
variable {t0 : TsWord} {f : FrameWord} {k : Nat} {s : State} {is : List Instr}
  {rest : List HostInput}

/-- A second's rising edge appends its bit. -/
theorem takes_rise (h : AfterEdge f k false (secondStart t0 k) s) (hk : k < 59)
    (hin : s.inputs = commandInputs (riseOf t0 f k :: is) ++ rest) :
    ∃ t, TakesCommand s t is rest
      ∧ AfterEdge f (k + 1) true (secondStart t0 k + pulseWidth (f.getLsbD k)) t := by
  obtain ⟨hbits, hlevel, hts⟩ := h
  have hexec := execSample_rising (secondStart t0 k + pulseWidth (f.getLsbD k))
    (s := openTransaction (commandInputs is ++ rest) s) hlevel
  rw [openTransaction_prevTs, hts, bit_of_pulseWidth] at hexec
  exact ⟨_, takesCommand_sample hin hexec, afterEdge_recordSample _ _
    (holdsBits_appendBit (holdsBits_openTransaction _ hbits) hk)⟩

/-- The falling edge of a second after the first appends nothing. -/
theorem takes_fall
    (h : AfterEdge f (k + 1) true (secondStart t0 k + pulseWidth (f.getLsbD k)) s)
    (hin : s.inputs = commandInputs (fallOf t0 (k + 1) :: is) ++ rest) :
    ∃ t, TakesCommand s t is rest ∧ AfterEdge f (k + 1) false (secondStart t0 (k + 1)) t := by
  obtain ⟨hbits, hlevel, hts⟩ := h
  have hexec := execSample_falling (ts := secondStart t0 (k + 1))
    (s := openTransaction (commandInputs is ++ rest) s) hlevel
    (by rw [openTransaction_prevTs, hts]; exact elapsedMs_next_second t0 k _)
  exact ⟨_, takesCommand_sample hin hexec, afterEdge_recordSample _ _
    (holdsBits_openTransaction _ hbits)⟩

/-- A falling edge at or past the sync gap starts a frame, whatever the assembler held (R127). -/
theorem takes_boundary {ts : TsWord} (f : FrameWord) (hlevel : s.prevLevel = true)
    (hlong : 1200 ≤ elapsedMs s.prevTs ts)
    (hin : s.inputs = commandInputs (.sample false ts :: is) ++ rest) :
    ∃ t, TakesCommand s t is rest ∧ AfterEdge f 0 false ts t :=
  ⟨_, takesCommand_sample hin (execSample_boundary hlevel hlong), afterEdge_recordSample _ _
    (holdsBits_zero f (assemblerEmpty_minuteBoundary ts _))⟩

/-- With an empty assembler any falling edge starts a frame, one already taken included (R115). -/
theorem takes_fall_of_empty {ts : TsWord} (f : FrameWord) (hempty : AssemblerEmpty s)
    (hstart : s.prevLevel = true ∨ s.prevTs = ts)
    (hin : s.inputs = commandInputs (.sample false ts :: is) ++ rest) :
    ∃ t, TakesCommand s t is rest ∧ AfterEdge f 0 false ts t := by
  have hbits := holdsBits_openTransaction (commandInputs is ++ rest) (holdsBits_zero f hempty)
  cases hlevel : s.prevLevel with
  | true =>
    by_cases hlong : 1200 ≤ elapsedMs s.prevTs ts
    · exact takes_boundary f hlevel hlong hin
    · exact ⟨_, takesCommand_sample hin (execSample_falling hlevel (Nat.not_le.mp hlong)),
        afterEdge_recordSample _ _ hbits⟩
  | false =>
    have hts : s.prevTs = ts := hstart.resolve_left (by rw [hlevel]; exact Bool.false_ne_true)
    exact ⟨_, takesCommand_sample hin (execSample_repeat ts hlevel), hbits, hlevel, hts⟩

/-- The falling edge after the silent second: the frame is delivered if its parities are even (R126,
R128), and the assembler is empty. -/
theorem takes_minute_end (hf : f.toNat < 2 ^ 59)
    (h : AfterEdge f 59 true (secondStart t0 58 + pulseWidth (f.getLsbD 58)) s)
    (hin : s.inputs = commandInputs (.sample false (t0 + 60000) :: is) ++ rest) :
    ∃ t, TakesCommand s t is rest ∧ AssemblerEmpty t ∧ t.prevLevel = false
      ∧ t.prevTs = t0 + 60000
      ∧ t.frm = if framePasses f then some { frame := f, ts := t0 + 60000 } else none := by
  obtain ⟨hbits, hlevel, hts⟩ := h
  have hopen := holdsBits_openTransaction (commandInputs is ++ rest) hbits
  have hexec := execSample_boundary (ts := t0 + 60000)
    (s := openTransaction (commandInputs is ++ rest) s) hlevel
    (by rw [openTransaction_prevTs, hts]; exact elapsedMs_silent_second t0 _)
  refine ⟨_, takesCommand_sample hin hexec, assemblerEmpty_minuteBoundary _ _, rfl, rfl, ?_⟩
  rw [recordSample_frm, minuteBoundary_eq, concludeOk_eq_framePasses hopen.inv hopen.pos,
    buf_of_holdsBits hopen hf]
  split
  · rfl
  · rfl

end

/-! ## The whole minute -/

/-- What the host presents after the falling edge of second `k`, with `n` more seconds to come before
the silent one. -/
def afterFall (t0 : TsWord) (f : FrameWord) : Nat → Nat → List Instr
  | 0, k => [riseOf t0 f k, .sample false (t0 + 60000)]
  | n + 1, k => riseOf t0 f k :: fallOf t0 (k + 1) :: afterFall t0 f n (k + 1)

theorem flatMap_range'_minuteSecond (t0 : TsWord) (f : FrameWord) (n k : Nat) :
    (List.range' k (n + 1)).flatMap (minuteSecond t0 f) ++ [.sample false (t0 + 60000)] =
      fallOf t0 k :: afterFall t0 f n k := by
  induction n generalizing k with
  | zero =>
    rw [List.range'_one, List.flatMap_singleton, minuteSecond_eq]
    rfl
  | succ n ih =>
    rw [List.range'_succ, List.flatMap_cons, List.append_assoc, ih (k + 1), minuteSecond_eq]
    rfl

/-- The commands of a minute and of the edge after it, from the first falling edge on. -/
theorem minute_append_end (t0 : TsWord) (f : FrameWord) :
    minute t0 f ++ [.sample false (t0 + 60000)] = .sample false t0 :: afterFall t0 f 58 0 := by
  rw [minute, List.range_eq_range', flatMap_range'_minuteSecond t0 f 58 0, fallOf,
    secondStart_zero]

/-- From the falling edge of second `k` to the end of the minute. -/
theorem runSteps_afterFall {t0 : TsWord} {f : FrameWord} (hf : f.toNat < 2 ^ 59)
    {rest : List HostInput} {n k : Nat} {s : State} (hk : k + n = 58)
    (h : AfterEdge f k false (secondStart t0 k) s)
    (hin : s.inputs = commandInputs (afterFall t0 f n k) ++ rest) :
    ∃ t, runSteps (2 * n + 2) s = .next t ∧ t.inputs = rest ∧ AssemblerEmpty t
      ∧ t.prevLevel = false ∧ t.prevTs = t0 + 60000
      ∧ t.frm = if framePasses f then some { frame := f, ts := t0 + 60000 } else none := by
  induction n generalizing k s with
  | zero =>
    obtain rfl : k = 58 := hk
    obtain ⟨u, hsu, hu⟩ := takes_rise h (by decide) hin
    obtain ⟨t, hut, ht⟩ := takes_minute_end hf hu hsu.presents
    refine ⟨t, ?_, hut.presents, ht⟩
    rw [runSteps_of_takesCommand hsu, runSteps_of_takesCommand hut, runSteps]
  | succ n ih =>
    obtain ⟨u, hsu, hu⟩ := takes_rise h (by omega) hin
    obtain ⟨v, huv, hv⟩ := takes_fall hu hsu.presents
    obtain ⟨t, hrun, ht⟩ := ih (by omega) hv huv.presents
    refine ⟨t, ?_, ht⟩
    rw [Nat.mul_succ, runSteps_of_takesCommand hsu, runSteps_of_takesCommand huv, hrun]

/-- Settles O32: the opening edge leaves an empty assembler, each second appends its bit, and the edge
after the silent second concludes. -/
theorem everyMinuteIsDeliveredOrDropped : Obligations.EveryMinuteIsDeliveredOrDropped := by
  intro s t0 f rest hstart hf hin
  rw [minute_append_end] at hin
  obtain ⟨u, hsu, hu⟩ :
      ∃ u, TakesCommand s u (afterFall t0 f 58 0) rest ∧ AfterEdge f 0 false t0 u := by
    obtain ⟨hempty, hline⟩ | ⟨hlevel, hlong⟩ := hstart
    · exact takes_fall_of_empty f hempty hline hin
    · exact takes_boundary f hlevel (by rw [elapsedMs_eq_mod]; exact hlong) hin
  obtain ⟨t, hrun, ht⟩ := runSteps_afterFall hf rfl ((secondStart_zero t0).symm ▸ hu) hsu.presents
  exact ⟨t, (runSteps_of_takesCommand hsu 118).trans hrun, ht⟩

end Sys2Proof.Machine
end

section
/-!
PROOFS (40_pulse_decoder.md). What SAMPLE, APPENDBIT and CONCLUDE do, as the rules write it; what the
parity checks of CONCLUDE catch; and what a delivered frame is. A parity is linear over exclusive-or, so
a flipped bit is judged on its own. "Unchanged outside the assembler" is said as one equation: clearing
the assemblers of the two states gives the same state.
-/
namespace Sys2Proof.Machine

/-! ## Elapsed time (R111) -/

/-- The elapsed time is the distance of the two timestamps, across a wrap too. -/
theorem elapsedMs_add (prev d : TsWord) : elapsedMs prev (prev + d) = d.toNat := by
  rw [elapsedMs, add_sub_cancel_left]

/-- Settles O16. -/
theorem elapsedTimeIsModular : Obligations.ElapsedTimeIsModular :=
  ⟨elapsedMs_eq_mod, fun prev d => by rw [elapsedMs_add, BitVec.toNat_ofNat]⟩

/-! ## The position, as a register and as a number -/

theorem pos_eq_iff {p : PosWord} {n : Nat} (hn : n < 64) : p = BitVec.ofNat 6 n ↔ p.toNat = n := by
  rw [← BitVec.toNat_inj, BitVec.toNat_ofNat, Nat.mod_eq_of_lt hn]

theorem pos_add_one (p : PosWord) : p + 1 = BitVec.ofNat 6 (p.toNat + 1) := by
  rw [BitVec.ofNat_add, BitVec.ofNat_toNat, BitVec.setWidth_eq]
  rfl

theorem clearAtStart_pos (p : PosWord) (run : Bool) :
    clearAtStart p.toNat run = if p = 21 ∨ p = 29 ∨ p = 36 then false else run := by
  have hopens : opensSegment p.toNat = true ↔ p = 21 ∨ p = 29 ∨ p = 36 := by
    simp only [opensSegment, Bool.or_eq_true, beq_iff_eq, or_assoc]
    exact or_congr (pos_eq_iff (by decide)).symm
      (or_congr (pos_eq_iff (by decide)).symm (pos_eq_iff (by decide)).symm)
  rw [clearAtStart]
  exact if_congr hopens rfl rfl

theorem latchAt_pos {n : Nat} (hn : n < 64) (p : PosWord) (run old : Bool) :
    latchAt n p.toNat run old = if p = BitVec.ofNat 6 n then run else old :=
  if_congr (pos_eq_iff hn).symm rfl rfl

/-! ## What the two operations run -/

theorem exec_sample (level : Bool) (ts : TsWord) (s : State) :
    exec (.sample level ts) s = execSample level ts s := rfl

theorem exec_appendBit (b : Bool) (s : State) :
    exec (.appendBit b) s = .next (appendBit b s) := rfl

/-! ## APPENDBIT (R120, R121) -/

theorem appendBit_of_pos_eq {s : State} (b : Bool) (h : s.pos = 59) : appendBit b s = s :=
  appendBit_full b ((pos_eq_iff (by decide)).mp h).ge

/-- Settles O23: the buffer written is the one `bufWrite` gives, and each parity step is read at the
position the bit is stored at. -/
theorem appendBitStoresLatchesAndFolds : Obligations.AppendBitStoresLatchesAndFolds := by
  refine fun s b => ⟨fun hroom => ⟨bufWrite s.buf s.pos.toNat b, fun i => ?_, ?_⟩, fun hfull => ?_⟩
  · exact bufWrite_getLsbD s.buf b (by omega) i.isLt
  · rw [exec_appendBit, appendBit_room b hroom, clearAtStart_pos, latchAt_pos (by decide),
      latchAt_pos (by decide), latchAt_pos (by decide), foldBit_eq_xor, pos_add_one]
    rfl
  · rw [exec_appendBit, appendBit_of_pos_eq b hfull]

/-- Settles O24: the guard of APPENDBIT leaves a rising edge only its record to write. -/
theorem overflowGuard : Obligations.OverflowGuard := by
  refine fun s hfull => ⟨fun b => ?_, fun ts hlow => ?_⟩
  · rw [exec_appendBit, appendBit_of_pos_eq b hfull]
  · rw [exec_sample, execSample_rising ts hlow, appendBit_of_pos_eq _ hfull]
    rfl

/-! ## CONCLUDE (R125) -/

theorem concludeOk_eq_decide (s : State) :
    concludeOk s = decide (s.pos = 59 ∧ s.parMin = s.buf.getLsbD 28
      ∧ s.parHour = s.buf.getLsbD 35 ∧ s.parDate = s.buf.getLsbD 58) := by
  rw [Bool.eq_iff_iff, concludeOk_iff, decide_eq_true_iff]
  exact and_congr_left' (pos_eq_iff (by decide)).symm

/-- Settles O25. -/
theorem concludeReturnsThenClears : Obligations.ConcludeReturnsThenClears :=
  fun s => ⟨congrArg (·, s.buf) (concludeOk_eq_decide s), rfl, rfl⟩

/-! ## SAMPLE (R112 to R117) -/

/-- Settles O15. -/
theorem sameLevelRepeatIsIgnored : Obligations.SameLevelRepeatIsIgnored :=
  fun _ ts => execSample_repeat ts rfl

/-- Settles O17: below the threshold the sample is recorded and no more; from it on the minute boundary
comes first. -/
theorem fallingEdgeConcludesFrom1200Ms : Obligations.FallingEdgeConcludesFrom1200Ms := by
  intro s ts hhigh
  rw [← elapsedMs_eq_mod]
  refine ⟨fun hshort => execSample_falling hhigh hshort, fun hlong => ?_⟩
  rw [exec_sample, execSample_boundary hhigh hlong, minuteBoundary_eq, concludeOk_eq_decide]
  split
  · next hok => rw [if_pos (of_decide_eq_true hok)]; rfl
  · next hok => rw [if_neg (fun hp => hok (decide_eq_true hp))]; rfl

/-- Settles O18. -/
theorem risingEdgeAppendsTheTimedBit : Obligations.RisingEdgeAppendsTheTimedBit := by
  intro s ts hlow
  rw [← elapsedMs_eq_mod]
  exact ⟨_, rfl, execSample_rising ts hlow⟩

/-- Settles O19: of SAMPLE's four cases only the repeat does not record. -/
theorem acceptedSampleIsRecorded : Obligations.AcceptedSampleIsRecorded := by
  intro s level ts haccepted
  obtain ⟨t, ht⟩ := execSample_total level ts s
  refine ⟨t, ht, ?_⟩
  obtain ⟨hrepeat, -⟩ | ⟨rfl, -, rfl⟩ | ⟨rfl, -, -, rfl⟩ | ⟨rfl, -, -, rfl⟩ := execSample_cases ht
  · exact absurd hrepeat haccepted
  · exact ⟨rfl, rfl⟩
  · exact ⟨rfl, rfl⟩
  · exact ⟨rfl, rfl⟩

/-- A rising edge `d` ms after the previous sample. -/
theorem execSample_rising_after {s : State} (d : TsWord) (h : s.prevLevel = false) :
    execSample true (s.prevTs + d) s =
      .next (recordSample true (s.prevTs + d) (appendBit (decide (170 ≤ d.toNat)) s)) := by
  rw [execSample_rising _ h, elapsedMs_add]

/-- A falling edge `d` ms after the previous sample, from the sync threshold on. -/
theorem execSample_boundary_after {s : State} {d : TsWord} (h : s.prevLevel = true)
    (hd : 1200 ≤ d.toNat) :
    execSample false (s.prevTs + d) s =
      .next (recordSample false (s.prevTs + d) (minuteBoundary (s.prevTs + d) s)) :=
  execSample_boundary h (by rw [elapsedMs_add]; exact hd)

/-- Settles O20: each boundary is a distance of the two timestamps, that of `PREV_TS - 1` being
`2^32 - 1`. -/
theorem thresholdBoundaries : Obligations.ThresholdBoundaries := by
  refine ⟨fun s hlow => ⟨execSample_rising_after 169 hlow, execSample_rising_after 170 hlow, ?_⟩,
    fun s hhigh => ⟨?_, execSample_boundary_after hhigh (by decide), ?_⟩⟩
  · have hzero := execSample_rising_after 0 hlow
    rwa [add_zero] at hzero
  · exact execSample_falling hhigh (by rw [elapsedMs_add]; decide)
  · have hlast := execSample_boundary_after (d := -1) hhigh (by decide)
    rwa [← sub_eq_add_neg] at hlast

theorem minuteBoundary_frame (ts : TsWord) (s : State) :
    (minuteBoundary ts s).res = s.res ∧ (minuteBoundary ts s).resetParams = s.resetParams := by
  rw [minuteBoundary_eq]
  split
  · exact ⟨rfl, rfl⟩
  · exact ⟨rfl, rfl⟩

theorem execSample_frame {level : Bool} {ts : TsWord} {s t : State}
    (h : execSample level ts s = .next t) :
    t.res = s.res ∧ t.resetParams = s.resetParams ∧ (level = true → t.frm = s.frm) := by
  obtain ⟨-, rfl⟩ | ⟨-, -, rfl⟩ | ⟨rfl, -, -, rfl⟩ | ⟨-, -, -, rfl⟩ := execSample_cases h
  · exact ⟨rfl, rfl, fun _ => rfl⟩
  · obtain ⟨-, -, hres, hfrm, -, hparams, -⟩ :=
      appendBit_frame (decide (170 ≤ elapsedMs s.prevTs ts)) s
    exact ⟨hres, hparams, fun _ => hfrm⟩
  · obtain ⟨hres, hparams⟩ := minuteBoundary_frame ts s
    exact ⟨hres, hparams, fun hrise => absurd hrise Bool.false_ne_true⟩
  · exact ⟨rfl, rfl, fun _ => rfl⟩

/-- Settles O21. -/
theorem sampleFrame : Obligations.SampleFrame := by
  intro s t level ts h
  obtain ⟨hres, hparams, hrising⟩ := execSample_frame h
  refine ⟨hres, execSample_inputs h, hparams, execSample_freeDraws h, hrising, ?_⟩
  rintro rfl hhigh hshort
  exact Host.Outcome.next.inj (h.symm.trans (execSample_falling hhigh hshort))

/-! ## The parity checks of CONCLUDE (R126) -/

theorem framePasses_iff (f : FrameWord) :
    framePasses f = true ↔
      parityOf f 21 8 = false ∧ parityOf f 29 7 = false ∧ parityOf f 36 23 = false := by
  rw [framePasses, Bool.and_eq_true, Bool.and_eq_true, and_assoc, Bool.not_eq_true',
    Bool.not_eq_true', Bool.not_eq_true']

/-- With 59 bits, what CONCLUDE returns as `ok` is the parity check of the buffer. -/
theorem conclude_ok_eq_framePasses {s : State} (hinv : DecoderInv s) (hpos : s.pos = 59) :
    (conclude s).1.1 = framePasses s.buf :=
  concludeOk_eq_framePasses hinv ((pos_eq_iff (by decide)).mp hpos)

/-- Settles O26: each latch is the parity of its segment's value bits, so it equals the parity bit when
the two cancel. -/
theorem concludeSucceedsOnEvenParity : Obligations.ConcludeSucceedsOnEvenParity := by
  intro s hinv hpos
  rw [conclude_ok_eq_framePasses hinv hpos, framePasses_iff]

/-! ## Flipped bits -/

/-- Parity is linear: a flip counts by itself. -/
theorem parityOf_xor (f g : FrameWord) (lo n : Nat) :
    parityOf (f ^^^ g) lo n = (parityOf f lo n ^^ parityOf g lo n) := by
  induction n with
  | zero => rfl
  | succ n ih =>
    rw [parityOf, ih, BitVec.getLsbD_xor, Bool.xor_assoc, Bool.xor_left_comm (parityOf g lo n),
      ← Bool.xor_assoc]
    rfl

/-- A single 1 makes a range odd exactly when it lies in it. -/
theorem parityOf_oneHot {i lo n : Nat} (h : lo + n ≤ 64) :
    parityOf (1#64 <<< i) lo n = decide (lo ≤ i ∧ i < lo + n) := by
  induction n with
  | zero =>
    have : ¬ (lo ≤ i ∧ i < lo + 0) := by omega
    exact (decide_eq_false this).symm
  | succ n ih =>
    have hbit : (1#64 <<< i).getLsbD (lo + n) = decide (lo + n = i) := by
      rw [← BitVec.twoPow_eq, BitVec.getLsbD_twoPow]
      grind
    rw [parityOf, ih (by omega), hbit]
    by_cases hlast : lo + n = i
    · subst hlast; simp
    · have : (lo ≤ i ∧ i < lo + n) ↔ (lo ≤ i ∧ i < lo + (n + 1)) := by omega
      simp [hlast, this]

/-- On top of a frame that passes, the flips alone decide. -/
theorem framePasses_xor {f : FrameWord} (hf : framePasses f = true) (g : FrameWord) :
    framePasses (f ^^^ g) = framePasses g := by
  obtain ⟨hmin, hhour, hdate⟩ := (framePasses_iff f).mp hf
  simp only [framePasses, parityOf_xor, hmin, hhour, hdate, Bool.false_xor]

/-- One flip in a segment is caught. -/
theorem framePasses_oneHot {lo e i : Nat} (hs : IsSegment lo e) (hi : lo ≤ i) (he : i ≤ e) :
    framePasses (1#64 <<< i) = false := by
  rw [Bool.eq_false_iff, ne_eq, framePasses_iff, parityOf_oneHot (by decide),
    parityOf_oneHot (by decide), parityOf_oneHot (by decide)]
  simp only [decide_eq_false_iff_not]
  unfold IsSegment at hs
  omega

/-- Two flips in one segment cancel. -/
theorem framePasses_twoHot {lo e i j : Nat} (hs : IsSegment lo e) (hi : lo ≤ i ∧ i ≤ e)
    (hj : lo ≤ j ∧ j ≤ e) : framePasses (1#64 <<< i ^^^ 1#64 <<< j) = true := by
  simp only [framePasses_iff, parityOf_xor, parityOf_oneHot (show 21 + 8 ≤ 64 by decide),
    parityOf_oneHot (show 29 + 7 ≤ 64 by decide), parityOf_oneHot (show 36 + 23 ≤ 64 by decide),
    bne_eq_false_iff_eq, decide_eq_decide]
  unfold IsSegment at hs
  omega

/-- Settles O27: of two full buffers with the invariant, CONCLUDE's verdict differs as the flips' own
parities do. -/
theorem singleBitFlipFailsAndParityFlipRepairs :
    Obligations.SingleBitFlipFailsAndParityFlipRepairs := by
  intro s t i p hs ht hspos htpos hsegment hok
  obtain ⟨lo, hseg, hlo, hip⟩ : ∃ lo, IsSegment lo p ∧ lo ≤ i ∧ i < p := by
    obtain ⟨h1, h2, rfl⟩ | ⟨h1, h2, rfl⟩ | ⟨h1, h2, rfl⟩ := hsegment
    · exact ⟨21, .inl ⟨rfl, rfl⟩, h1, by omega⟩
    · exact ⟨29, .inr (.inl ⟨rfl, rfl⟩), h1, by omega⟩
    · exact ⟨36, .inr (.inr ⟨rfl, rfl⟩), h1, by omega⟩
  rw [conclude_ok_eq_framePasses hs hspos] at hok
  rw [conclude_ok_eq_framePasses ht htpos]
  refine ⟨fun hflip => ?_, fun hflip => ?_⟩
  · rw [hflip, framePasses_xor hok]
    exact framePasses_oneHot hseg hlo hip.le
  · rw [hflip, BitVec.xor_assoc, framePasses_xor hok]
    exact framePasses_twoHot hseg ⟨hlo, hip.le⟩ ⟨by omega, le_rfl⟩

/-! ## Delivered frames (R128, R129) -/

/-- Bits at and above the position are 0, so the buffer is below `2 ^ POS` (R29 (b)). -/
theorem buf_lt_two_pow_pos {s : State} (h : DecoderInv s) :
    s.buf.toNat < 2 ^ s.pos.toNat := by
  obtain ⟨⟨-, hzero⟩, -⟩ := h
  refine Nat.lt_pow_two_of_testBit _ fun i hi => ?_
  by_cases hlt : i < 64
  · exact hzero ⟨i, hlt⟩ hi
  · exact BitVec.getLsbD_of_ge s.buf i (Nat.not_lt.mp hlt)

theorem minuteBoundary_frm (ts : TsWord) (s : State) :
    (minuteBoundary ts s).frm = if concludeOk s then some ⟨s.buf, ts⟩ else s.frm := by
  rw [minuteBoundary_eq]
  split
  · rfl
  · rfl

/-- Only a minute boundary whose CONCLUDE succeeds writes the event port (R128, R206). -/
theorem exec_frm_cases {i : Instr} {s t : State} (h : exec i s = .next t) :
    t.frm = s.frm
      ∨ ∃ ts, concludeOk s = true ∧ t = recordSample false ts (minuteBoundary ts s) := by
  cases i with
  | sample level ts =>
    obtain ⟨-, rfl⟩ | ⟨rfl, -, -⟩ | ⟨-, -, -, rfl⟩ | ⟨-, -, -, rfl⟩ := execSample_cases h
    · exact .inl rfl
    · obtain ⟨-, -, hrising⟩ := execSample_frame h
      exact .inl (hrising rfl)
    · by_cases hok : concludeOk s = true
      · exact .inr ⟨ts, hok, rfl⟩
      · rw [recordSample_frm, minuteBoundary_frm, if_neg hok]
        exact .inl rfl
    · exact .inl rfl
  | fdec f => cases h; exact .inl rfl
  | t2c x dst => cases h; exact .inl rfl
  | c2t r => obtain ⟨_, -, rfl⟩ | ⟨-, rfl⟩ := execC2t_cases h <;> exact .inl rfl
  | appendBit b =>
    cases h
    obtain ⟨-, -, -, hfrm, -, -, -⟩ := appendBit_frame b s
    exact .inl hfrm
  | conclude => cases h; exact .inl rfl

/-- Settles O28: the port is empty when the transaction begins, so the event is the buffer of a CONCLUDE
that succeeded, which the invariant bounds. -/
theorem deliveredFrameIsClean : Obligations.DeliveredFrameIsClean := by
  intro s t e hinv hstep he
  obtain ⟨-, rfl⟩ | ⟨rest, -, rfl⟩ | ⟨w, rest, i, -, -, hexec⟩ | ⟨w, rest, -, -, -, rfl⟩ :=
    step_cases hstep
  · cases he
  · cases he
  · have hopen := decoderInv_openTransaction rest hinv
    obtain hkept | ⟨ts, hok, rfl⟩ := exec_frm_cases hexec
    · rw [hkept] at he
      cases he
    · obtain ⟨hpos, -⟩ := (concludeOk_iff (openTransaction rest s)).mp hok
      have hlt := buf_lt_two_pow_pos hopen
      rw [hpos] at hlt
      rw [recordSample_frm, minuteBoundary_frm, if_pos hok] at he
      cases he
      exact ⟨hlt, (concludeOk_eq_framePasses hopen hpos).symm.trans hok,
        assemblerEmpty_minuteBoundary ts _, rfl⟩
  · cases he

/-! ## A list of appended bits (R120 to R126) -/

theorem clearAssembler_appendBit (b : Bool) (s : State) :
    clearAssembler (appendBit b s) = clearAssembler s := by
  unfold appendBit
  split
  · rfl
  · rfl

/-- Clearing erases the assembler only, so equal cleared states agree on everything else. -/
theorem eq_outside_of_clearAssembler_eq {s t : State} (h : clearAssembler t = clearAssembler s) :
    t.prevLevel = s.prevLevel ∧ t.prevTs = s.prevTs ∧ t.res = s.res ∧ t.frm = s.frm
      ∧ t.inputs = s.inputs ∧ t.resetParams = s.resetParams ∧ t.freeDraws = s.freeDraws := by
  obtain ⟨-, -, hlevel, hts, -, -, -, -, hres, hfrm, hinputs, hparams, hdraws⟩ := State.mk.inj h
  exact ⟨hlevel, hts, hres, hfrm, hinputs, hparams, hdraws⟩

/-- `t` holds the first 59 of `bits`, and differs from `s` in nothing outside the assembler. -/
structure HoldsList (bits : List Bool) (s t : State) : Prop where
  inv : DecoderInv t
  pos : t.pos.toNat = min 59 bits.length
  buf : ∀ i < 64, t.buf.getLsbD i = (decide (i < 59) && bits.getD i false)
  outside : clearAssembler t = clearAssembler s

theorem holdsList_nil {s : State} (h : AssemblerEmpty s) : HoldsList [] s s where
  inv := decoderInv_of_assemblerEmpty h
  pos := by obtain ⟨-, hpos, -⟩ := h; rw [hpos]; rfl
  buf := fun i _ => by obtain ⟨hbuf, -⟩ := h; simp [hbuf]
  outside := rfl

/-- One more bit goes to the next index, or, with 59 stored, nowhere. -/
theorem holdsList_concat {bits : List Bool} {s t : State} (b : Bool) (h : HoldsList bits s t) :
    HoldsList (bits ++ [b]) s (appendBit b t) := by
  obtain ⟨hinv, hpos, hbuf, hout⟩ := h
  refine ⟨decoderInv_appendBit b hinv, ?_, fun i hi => ?_, (clearAssembler_appendBit b t).trans hout⟩
  all_goals by_cases hroom : t.pos.toNat < 59
  · rw [appendBit_pos_toNat b hroom, List.length_append, List.length_singleton]
    omega
  · rw [appendBit_full b (Nat.not_lt.mp hroom), List.length_append, List.length_singleton]
    omega
  · have hlen : t.pos.toNat = bits.length := by omega
    rw [appendBit_room b hroom, bufWrite_getLsbD _ _ (by omega) hi, hbuf i hi, hlen]
    obtain hlt | rfl | hgt := lt_trichotomy i bits.length
    · rw [if_neg hlt.ne, List.getD_append _ _ _ _ hlt]
    · have hlow : bits.length < 59 := by omega
      simp [hlow]
    · rw [if_neg hgt.ne', List.getD_eq_default _ _ hgt.le, List.getD_eq_default _ _ (by simpa)]
  · rw [appendBit_full b (Nat.not_lt.mp hroom), hbuf i hi]
    by_cases hlow : i < 59
    · rw [List.getD_append _ _ _ _ (by omega)]
    · simp [hlow]

/-- Executing APPENDBIT of each bit completes, and is the updates in turn. -/
theorem execAll_appendBit (bits : List Bool) (s : State) :
    execAll (bits.map Instr.appendBit) s = .next (bits.foldl (fun s b => appendBit b s) s) := by
  induction bits generalizing s with
  | nil => rfl
  | cons b bits ih => exact ih (appendBit b s)

theorem holdsList_foldl (bits : List Bool) {s : State} (h : AssemblerEmpty s) :
    HoldsList bits s (bits.foldl (fun s b => appendBit b s) s) := by
  induction bits using List.reverseRecOn with
  | nil => exact holdsList_nil h
  | append_singleton bits b ih =>
    rw [List.foldl_append]
    exact holdsList_concat b ih

/-- CONCLUDE judges the list: 59 or more bits, and three even segments. -/
theorem conclude_ok_of_holdsList {bits : List Bool} {s t : State} (h : HoldsList bits s t) :
    (conclude t).1.1 = true ↔ 59 ≤ bits.length ∧ framePasses t.buf = true := by
  have hpos := h.pos
  by_cases hfull : t.pos.toNat = 59
  · have hlen : 59 ≤ bits.length := by omega
    rw [← concludeOk_eq_framePasses h.inv hfull]
    exact (and_iff_right hlen).symm
  · have hlen : ¬ 59 ≤ bits.length := by omega
    have hfails : ¬ concludeOk t = true := fun hok => hfull ((concludeOk_iff t).mp hok).1
    exact iff_of_false hfails fun hand => hlen hand.1

/-- Settles O31, by induction on the bits appended. -/
theorem assemblerKeepsTheFirst59Bits : Obligations.AssemblerKeepsTheFirst59Bits := by
  intro s bits hempty
  have h := holdsList_foldl bits hempty
  exact ⟨_, execAll_appendBit bits s, h.pos, fun i => h.buf i i.isLt, conclude_ok_of_holdsList h,
    eq_outside_of_clearAssembler_eq h.outside⟩

end Sys2Proof.Machine
end

section
/-!
PROOFS (41_field_decoder.md). FDEC by its fields: the packed-decimal decode as ten times the high part
plus the low digit, which bounds it by the width of the sub-field decoded; and the integer each field of
the record holds.
-/
namespace Sys2Proof.Machine

/-! ## The packed-decimal decode (R141) -/

theorem bcd_mul_add (a : Nat) {b : Nat} (hb : b ≤ 15) : bcd (16 * a + b) = 10 * a + b := by
  have hdiv : (16 * a + b) / 16 = a := by omega
  rw [bcd, hdiv]
  omega

/-- Settles O37: R141's law, and its four examples. -/
theorem packedDecimalDecode : Obligations.PackedDecimalDecode :=
  ⟨fun a _ hb => bcd_mul_add a hb, bcd_mul_add 3 (b := 0) (by decide),
    bcd_mul_add 2 (b := 3) (by decide), bcd_mul_add 1 (b := 9) (by decide),
    bcd_mul_add 1 (b := 15) (by decide)⟩

/-- The decode of a value whose high part is below `n`: the greatest has high part `n - 1` and low
digit 15. -/
theorem bcd_lt {v n : Nat} (h : v < 16 * n) : bcd v < 10 * n + 6 := by
  have hsplit : bcd v = 10 * (v / 16) + v % 16 := by
    rw [← bcd_mul_add (v / 16) (by omega), Nat.div_add_mod]
  omega

/-! ## Sub-fields of a frame (R84) -/

theorem subField_eq_div_mod (f : FrameWord) (lo w : Nat) :
    subField f lo w = f.toNat / 2 ^ lo % 2 ^ w := by
  rw [subField, Nat.shiftRight_eq_div_pow]

theorem subField_lt (f : FrameWord) (lo w : Nat) : subField f lo w < 2 ^ w :=
  Nat.mod_lt _ (Nat.two_pow_pos w)

/-! ## Narrowing (R87) -/

theorem trunc32_natCast (n : Nat) : trunc32 n = BitVec.ofNat 32 n := BitVec.ofInt_natCast 32 n

theorem trunc32_sub_one (x : Int) : trunc32 (x - 1) = trunc32 x - 1 := by
  rw [trunc32, sub_eq_add_neg, BitVec.ofInt_add, BitVec.ofInt_neg, ← sub_eq_add_neg]
  rfl

/-- An integer in the range of a field is read back as it was. -/
theorem sext32_trunc32 {x : Int} (hlow : -2147483648 ≤ x) (hhigh : x < 2147483648) :
    sext32 (trunc32 x) = x :=
  BitVec.toInt_ofInt_eq_self (by decide) hlow hhigh

/-! ## The record of a frame (R140 to R152) -/

/-- Settles O38: FDEC is one delivery of the record, whose fields are the decodes of the frame's
sub-fields. -/
theorem fdecDeliversTheDecodedRecord : Obligations.FdecDeliversTheDecodedRecord := by
  intro f s d
  have hd (v : Nat) : bcd v = d v := rfl
  have hyearDay : trunc32 (-1) = 0xFFFFFFFF := rfl
  have hyear (n : Nat) : trunc32 (100 + n) = BitVec.ofNat 32 (100 + n) := trunc32_natCast (100 + n)
  show execFdec f s = _
  simp only [execFdec, deliverResult, recordOfFrame, subField_eq_div_mod, hd, hyear,
    hyearDay, trunc32_natCast, trunc32_sub_one, getLsbD_eq_decide_div,
    Nat.reducePow]

/-- Settles O39: each sub-field's width bounds its decode, and no field is out of the narrowing's
range. -/
theorem fdecFieldRanges : Obligations.FdecFieldRanges := by
  intro f
  have hmin : bcd (subField f 21 7) < 86 := bcd_lt (n := 8) (subField_lt f 21 7)
  have hhour : bcd (subField f 29 6) < 46 := bcd_lt (n := 4) (subField_lt f 29 6)
  have hday : bcd (subField f 36 6) < 46 := bcd_lt (n := 4) (subField_lt f 36 6)
  have hmonth : bcd (subField f 45 5) < 26 := bcd_lt (n := 2) (subField_lt f 45 5)
  have hyear : bcd (subField f 50 8) < 166 := bcd_lt (n := 16) (subField_lt f 50 8)
  have hweekday : bcd (subField f 42 3) % 7 < 7 := Nat.mod_lt _ (by decide)
  refine ⟨?_, ?_, ?_, ?_, ?_, ?_, rfl, rfl⟩
  all_goals
    rw [recordOfFrame, sext32_trunc32 (by omega) (by omega)]
    omega

/-- Settles O40: the two extreme frames and the two raw minutes, computed. -/
theorem fdecCornerRecords : Obligations.FdecCornerRecords :=
  ⟨by decide, by decide, by decide, by decide⟩

end Sys2Proof.Machine
end

section
/-!
PROOFS (42_calendar_converter.md). The calendar of R161 to R163, and the two converters against it.
T2C gives the one date of a day count (Laws/Calendar.lean), C2T the day count of a date; that a year
begins at a fixed day and the years do not overlap is what turns bounds on dates into bounds on
seconds.
-/
namespace Sys2Proof.Machine

/-! ## The leap count and the cumulative table (R161 to R163) -/

theorem leapCount_add_one (Y : Int) : leapCount (Y + 1) = leapCount Y + leapDay Y := by
  rw [leapDay_eq_floors]
  unfold leapCount
  omega

/-- Settles O51: both forms of `L` are sums of floors, and so is the leap day of a year. -/
theorem leapCountCountsLeapYears : Obligations.LeapCountCountsLeapYears := by
  refine ⟨rfl, leapCount_add_one, fun Y => ?_⟩
  unfold leapCount
  omega

theorem cum_eq_none_iff (Y m : Int) : cum Y m = none ↔ m < 0 ∨ 11 < m := by
  constructor
  · intro h
    by_contra hm
    rw [cum_eq_formula Y (by omega) (by omega)] at h
    cases h
  · intro h
    cases hc : cum Y m with
    | none => rfl
    | some c =>
      obtain ⟨h0, h11, -, -⟩ := cum_bounds hc
      omega

/-- Each entry of the table exceeds the one before it by that month's length (R162). -/
theorem cum_add_one (Y : Int) {m : Int} (h0 : 0 ≤ m) (h10 : m ≤ 10) :
    cum Y (m + 1) = (cum Y m).map (· + monthLength Y m) := by
  rw [cum_eq_formula Y (by omega) (by omega), cum_eq_formula Y h0 (by omega), Option.map_some]
  congr 1
  unfold monthLength
  rcases month_cases h0 (by omega) with
    rfl | rfl | rfl | rfl | rfl | rfl | rfl | rfl | rfl | rfl | rfl | rfl <;> norm_num <;> omega

/-- Settles O52: the table as a formula, its differences, and where it has no entry. -/
theorem cumulativeTableSumsMonthLengths : Obligations.CumulativeTableSumsMonthLengths := fun Y =>
  ⟨cum_eq_formula Y (by decide) (by decide), fun _ h0 h10 => cum_add_one Y h0 h10,
    cum_eq_none_iff Y⟩

/-- No entry exceeds that of December. -/
theorem cum_le {Y m c : Int} (h : cum Y m = some c) : c ≤ 334 + leapDay Y := by
  obtain ⟨h0, h11, -, -⟩ := cum_bounds h
  rw [cum_eq_formula Y h0 h11] at h
  have hleap := leapDay_cases Y
  have hc := Option.some.inj h
  split_ifs at hc <;> omega

/-- The day count of a date whose month has a table entry `c` (R163). -/
theorem dayCount_eq {Y m c : Int} (d : Int) (h : cum Y m = some c) :
    dayCount Y m d = some ((Y - 1970) * 365 + leapCount Y + c + (d - 1)) := by
  rw [dayCount, h, Option.map_some]

/-! ## Years and dates of a day count (R163, R192) -/

/-- The year of a day count reaches `Y` exactly when the count reaches 1 January of `Y`. -/
theorem le_civilOfDays_year_iff (Y days : Int) :
    Y ≤ (civilOfDays days).year ↔ (Y - 1970) * 365 + leapCount Y ≤ days := by
  obtain ⟨hstart, hend⟩ := civilOfDays_year_bounds days
  constructor
  · intro h
    have := yearStart_mono h
    omega
  · intro h
    by_contra hlt
    have := yearStart_mono (show (civilOfDays days).year + 1 ≤ Y by omega)
    omega

/-- A date lies in its year. -/
theorem date_in_year {Y m d c : Int} (hc : cum Y m = some c) (h1 : 1 ≤ d)
    (hd : d ≤ monthLength Y m) :
    (Y - 1970) * 365 + leapCount Y ≤ (Y - 1970) * 365 + leapCount Y + c + (d - 1)
      ∧ (Y - 1970) * 365 + leapCount Y + c + (d - 1)
          < (Y + 1 - 1970) * 365 + leapCount (Y + 1) := by
  obtain ⟨-, -, hc0, hlen⟩ := cum_bounds hc
  rw [leapCount_add_one]
  omega

/-- The date of a date's day count is that date: the year is unique, and then the month and day. -/
theorem civilOfDays_of_date {Y m d c days : Int} (hc : cum Y m = some c) (h1 : 1 ≤ d)
    (hd : d ≤ monthLength Y m) (hdays : (Y - 1970) * 365 + leapCount Y + c + (d - 1) = days) :
    civilOfDays days = { year := Y, month := m, monthDay := d
                         weekday := (days + 4) % 7, yearDay := c + d - 1 } := by
  obtain ⟨c', hc', -, -, h1', hd', hyearDay, hdays', hweekday⟩ := civilOfDays_spec days
  obtain ⟨hstart, hend⟩ := date_in_year hc h1 hd
  rw [hdays] at hstart hend
  have hyear : (civilOfDays days).year = Y := by
    obtain ⟨hstart', hend'⟩ := civilOfDays_year_bounds days
    exact year_unique hstart hend hstart' hend'
  rw [hyear] at hc' hd' hdays'
  obtain ⟨hmonth, hday⟩ := month_unique hc' hc h1' hd' h1 hd (by omega)
  rw [CivilDate.mk.injEq]
  exact ⟨hyear, hmonth, hday, hweekday, by omega⟩

/-! ## The record of a timestamp (R170 to R181) -/

theorem monthLength_le (Y m : Int) : monthLength Y m ≤ 31 := by
  have hleap := leapDay_cases Y
  unfold monthLength
  split_ifs <;> omega

section
variable (t : Int) (dst : Bool)

theorem recordOfTimestamp_sec : (recordOfTimestamp t dst).sec.toInt = t % 86400 % 60 :=
  sext32_trunc32 (x := t % 86400 % 60) (by omega) (by omega)

theorem recordOfTimestamp_min : (recordOfTimestamp t dst).min.toInt = t % 86400 % 3600 / 60 :=
  sext32_trunc32 (x := t % 86400 % 3600 / 60) (by omega) (by omega)

theorem recordOfTimestamp_hour : (recordOfTimestamp t dst).hour.toInt = t % 86400 / 3600 :=
  sext32_trunc32 (x := t % 86400 / 3600) (by omega) (by omega)

theorem recordOfTimestamp_monthDay :
    (recordOfTimestamp t dst).monthDay.toInt = (civilOfDays (t / 86400)).monthDay := by
  obtain ⟨c, -, -, -, hday, hlen, -, -, -⟩ := civilOfDays_spec (t / 86400)
  have hmax := hlen.trans (monthLength_le _ _)
  exact sext32_trunc32 (x := (civilOfDays (t / 86400)).monthDay) (by omega) (by omega)

theorem recordOfTimestamp_month :
    (recordOfTimestamp t dst).month.toInt = (civilOfDays (t / 86400)).month := by
  obtain ⟨c, -, hlow, hhigh, -, -, -, -, -⟩ := civilOfDays_spec (t / 86400)
  exact sext32_trunc32 (x := (civilOfDays (t / 86400)).month) (by omega) (by omega)

theorem recordOfTimestamp_weekday :
    (recordOfTimestamp t dst).weekday.toInt = (t / 86400 + 4) % 7 := by
  obtain ⟨c, -, -, -, -, -, -, -, hweekday⟩ := civilOfDays_spec (t / 86400)
  rw [← hweekday]
  exact sext32_trunc32 (x := (civilOfDays (t / 86400)).weekday) (by omega) (by omega)

/-- R179: the year minus 1900 fits its field exactly between these two timestamps. -/
theorem year_fits_iff :
    (-2147483648 ≤ (civilOfDays (t / 86400)).year - 1900
        ∧ (civilOfDays (t / 86400)).year - 1900 ≤ 2147483647)
      ↔ -67768040609740800 ≤ t ∧ t ≤ 67768036191676799 := by
  have hlow : -2147481748 ≤ (civilOfDays (t / 86400)).year ↔ -784352321872 ≤ t / 86400 :=
    le_civilOfDays_year_iff (-2147481748) (t / 86400)
  have hhigh : 2147485548 ≤ (civilOfDays (t / 86400)).year ↔ 784352270737 ≤ t / 86400 :=
    le_civilOfDays_year_iff 2147485548 (t / 86400)
  omega

variable {t} in
theorem recordOfTimestamp_year (hlow : -67768040609740800 ≤ t) (hhigh : t ≤ 67768036191676799) :
    (recordOfTimestamp t dst).year.toInt = (civilOfDays (t / 86400)).year - 1900 := by
  obtain ⟨hfit0, hfit1⟩ := (year_fits_iff t).2 ⟨hlow, hhigh⟩
  exact sext32_trunc32 (x := (civilOfDays (t / 86400)).year - 1900) hfit0 (by omega)

end

/-- T2C is one delivery of the record of its operand (R170). -/
theorem exec_t2c (t : TimeWord) (dst : Bool) (s : State) :
    exec (.t2c t dst) s =
      .next (deliverResult (recordImage (recordOfTimestamp t.toInt dst)) s) := rfl

/-- Settles O41: none of these fields is out of the narrowing's range. -/
theorem t2cClockAndWeekday : Obligations.T2cClockAndWeekday := fun t dst s =>
  ⟨recordOfTimestamp t.toInt dst, exec_t2c t dst s, recordOfTimestamp_hour t.toInt dst,
    recordOfTimestamp_min t.toInt dst, recordOfTimestamp_sec t.toInt dst,
    recordOfTimestamp_weekday t.toInt dst, rfl⟩

/-- Settles O42: the time of day is the split of the operand's second of the day, and the date
that of its day count. -/
theorem t2cDeliversTheCalendarDate : Obligations.T2cDeliversTheCalendarDate := by
  intro t dst s
  obtain ⟨c, hcum, hmonth0, hmonth11, hday, hlen, hyearDay, hdays, hweekday⟩ :=
    civilOfDays_spec (t.toInt / 86400)
  refine ⟨(civilOfDays (t.toInt / 86400)).year, (civilOfDays (t.toInt / 86400)).month,
    (civilOfDays (t.toInt / 86400)).monthDay, t.toInt % 86400 / 3600,
    t.toInt % 86400 % 3600 / 60, t.toInt % 86400 % 60, c, ?_, by omega, by omega, by omega,
    ⟨hmonth0, hmonth11⟩, ⟨hday, hlen⟩, hcum, ?_⟩
  · rw [exec_t2c, ← hweekday, ← hyearDay]
    rfl
  · rw [← hdays]
    omega

/-- Settles O43: the year reaches a bound of its field from 1 January of that year on. -/
theorem t2cYearFieldExactRange : Obligations.T2cYearFieldExactRange := fun t dst =>
  ⟨year_fits_iff t.toInt, recordOfTimestamp_year dst, rfl⟩

/-- Settles O44: a 64-bit operand bounds the day count, and with it the era and the year; the other
values are bounded by the era arithmetic itself. -/
theorem t2cIntermediateRanges : Obligations.T2cIntermediateRanges := by
  intro t days z era doe yoe doy mp
  have hz : z = days + 719468 := rfl
  have hera : era = z / 146097 := rfl
  have hdoe : 0 ≤ doe ∧ doe ≤ 146096 := by
    have : doe = z - era * 146097 := rfl
    omega
  obtain ⟨hdoe0, hdoe1⟩ := hdoe
  obtain ⟨hyoe0, hyoe399, hdoy0, hdoy365, -⟩ := yearOfEra_spec hdoe0 hdoe1
  obtain ⟨hmp0, hmp11, hday1, hday31⟩ := marchMonth_spec hdoy0 hdoy365
  have hdays : -106751991167301 ≤ days ∧ days ≤ 106751991167300 := by
    have hlow := BitVec.le_toInt t
    have hhigh := BitVec.toInt_lt (x := t)
    have : days = t.toInt / 86400 := rfl
    omega
  have hyear : -300000000000 < (civilOfDays days).year
      ∧ (civilOfDays days).year < 300000000000 := by
    have hlow : -299999999999 ≤ (civilOfDays days).year ↔ -109572750719162 ≤ days :=
      le_civilOfDays_year_iff (-299999999999) days
    have hhigh : 300000000000 ≤ (civilOfDays days).year ↔ 109572749280472 ≤ days :=
      le_civilOfDays_year_iff 300000000000 days
    omega
  exact ⟨by omega, by omega, hyear, ⟨hdoe0, hdoe1⟩, ⟨hyoe0, hyoe399⟩, ⟨hdoy0, hdoy365⟩,
    ⟨hmp0, hmp11⟩, hday1, hday31⟩

/-! ## The seconds of a record (R182 to R190) -/

theorem secondsOfRecord_eq_none {r : CalendarRecord}
    (h : cum (1900 + r.year.toInt) r.month.toInt = none) : secondsOfRecord r = none := by
  simp [secondsOfRecord, dayCount, sext32, h]

/-- A record with a second count has a month with a table entry. -/
theorem cum_of_secondsOfRecord {r : CalendarRecord} {T : Int} (h : secondsOfRecord r = some T) :
    ∃ c, cum (1900 + r.year.toInt) r.month.toInt = some c := by
  cases hc : cum (1900 + r.year.toInt) r.month.toInt with
  | some c => exact ⟨c, rfl⟩
  | none =>
    rw [secondsOfRecord_eq_none hc] at h
    cases h

theorem timeResult_eq_ofNat (x : TimeWord) : timeResult x = BitVec.ofNat 257 x.toNat :=
  (BitVec.ofNat_toNat 257 x).symm

theorem exec_c2t (r : CalendarRecord) (s : State) : exec (.c2t r) s = execC2t r s := rfl

/-- Settles O46: a record is another with three fields replaced, and C2T looks at none of them. -/
theorem c2tIgnoresWeekdayYearDayAndFlag : Obligations.C2tIgnoresWeekdayYearDayAndFlag := by
  intro s r q hsec hmin hhour hmonthDay hmonth hyear
  have hr : r = { q with weekday := r.weekday, yearDay := r.yearDay, isDst := r.isDst } := by
    rw [← hsec, ← hmin, ← hhour, ← hmonthDay, ← hmonth, ← hyear]
  rw [exec_c2t, exec_c2t, hr, execC2t_ignores]

/-- Settles O47: such a month has no table entry, so the result is the free value. -/
theorem c2tMonthOutOfRangeGivesAnyValue : Obligations.C2tMonthOutOfRangeGivesAnyValue := by
  intro r s hmonth
  have hnone := secondsOfRecord_eq_none ((cum_eq_none_iff (1900 + r.year.toInt) _).2 hmonth)
  refine ⟨freeSeconds s.freeDraws r, s.freeDraws + 1, ?_⟩
  rw [exec_c2t, execC2t_of_none s hnone, timeResult_eq_ofNat]
  rfl

/-- Settles O45: the second count, its table entry taken from the table as printed. -/
theorem c2tDeliversTheFoldedSeconds : Obligations.C2tDeliversTheFoldedSeconds := by
  intro r s h0 h11 Y table L yday T
  have hnat : r.month.toInt.toNat = r.month.toNat := by
    rw [BitVec.toInt_eq_toNat_of_msb (by simpa [BitVec.msb_eq_toInt] using h0), Int.toNat_natCast]
  have htable : (if leap Y then cumLeap else cumCommon) = table := by
    simp only [leap, decide_eq_true_eq]
    rfl
  have hcum := cum_eq_table Y h0 h11
  rw [hnat, htable] at hcum
  have hseconds := secondsOfRecord_eq hcum
  have hT : T = ((Y - 1970) * 365 + leapCount Y + table.getD r.month.toNat 0
      + (r.monthDay.toInt - 1)) * 86400 + r.hour.toInt * 3600 + r.min.toInt * 60 + r.sec.toInt := by
    show ((Y - 1970) * 365 + leapCount Y + (table.getD r.month.toNat 0 + r.monthDay.toInt - 1))
      * 86400 + _ + _ + _ = _
    ring
  rw [exec_c2t, execC2t_of_some s hseconds, ← hT, timeResult_eq_ofNat, trunc64, BitVec.toNat_ofInt]
  rfl

/-- A field holds a 32-bit two's complement integer (30_encoding.md R86). -/
theorem field_bounds (v : FieldWord) : -2147483648 ≤ v.toInt ∧ v.toInt ≤ 2147483647 :=
  ⟨BitVec.le_toInt v, Int.le_of_lt_add_one BitVec.toInt_lt⟩

/-- The second count is least in the first month of the first year and greatest in the last of the
last (R190), whatever the other fields. -/
theorem secondsOfRecord_bounds {r : CalendarRecord} {T : Int} (h : secondsOfRecord r = some T) :
    -67961445134649728 ≤ T ∧ T ≤ 67961440713644467 := by
  obtain ⟨c, hc⟩ := cum_of_secondsOfRecord h
  rw [secondsOfRecord_eq hc, Option.some.injEq] at h
  obtain ⟨-, -, hc0, -⟩ := cum_bounds hc
  have hc1 := cum_le hc
  have hnext := leapCount_add_one (1900 + r.year.toInt)
  obtain ⟨hyear0, hyear1⟩ := field_bounds r.year
  obtain ⟨hday0, hday1⟩ := field_bounds r.monthDay
  obtain ⟨hhour0, hhour1⟩ := field_bounds r.hour
  obtain ⟨hmin0, hmin1⟩ := field_bounds r.min
  obtain ⟨hsec0, hsec1⟩ := field_bounds r.sec
  have hfirst := yearStart_mono (show 1900 - 2147483648 ≤ 1900 + r.year.toInt by omega)
  have hlast := yearStart_mono (show 1900 + r.year.toInt + 1 ≤ 1900 + 2147483647 + 1 by omega)
  rw [show leapCount (1900 - 2147483648) = -520764802 by decide] at hfirst
  rw [show leapCount (1900 + 2147483647 + 1) = 520764767 by decide] at hlast
  omega

/-- An integer in the range of a timestamp is read back as it was. -/
theorem sext64_trunc64 {x : Int} (hlow : -9223372036854775808 ≤ x)
    (hhigh : x < 9223372036854775808) : sext64 (trunc64 x) = x :=
  BitVec.toInt_ofInt_eq_self (by decide) hlow hhigh

theorem sext64_trunc64_of_secondsOfRecord {r : CalendarRecord} {T : Int}
    (h : secondsOfRecord r = some T) : sext64 (trunc64 T) = T := by
  obtain ⟨hlow, hhigh⟩ := secondsOfRecord_bounds h
  exact sext64_trunc64 (by omega) (by omega)

/-- Settles O48: the bounds, and the two records that reach them, computed. -/
theorem c2tNeverOverflows : Obligations.C2tNeverOverflows := by
  refine ⟨fun r T h => ?_, by decide, by decide⟩
  obtain ⟨hlow, hhigh⟩ := secondsOfRecord_bounds h
  exact ⟨hlow, hhigh, sext64_trunc64_of_secondsOfRecord h⟩

/-- Settles O49: with the year and month fixed, the sum is linear in the other four fields. -/
theorem c2tFieldsEnterLinearly : Obligations.C2tFieldsEnterLinearly := by
  intro r h0 h11
  have hcum := cum_eq_table (1900 + r.year.toInt) h0 h11
  refine ⟨_, secondsOfRecord_eq hcum, ?_⟩
  have h00 : (0 : FieldWord).toInt = 0 := rfl
  have h01 : (1 : FieldWord).toInt = 1 := rfl
  rw [secondsOfRecord_eq hcum, Option.some.injEq, h00, h01]
  ring

/-- A record in range is a date of the calendar with a time of day. -/
theorem inRange_spec {r : CalendarRecord} (h : InRange r) :
    ∃ c, cum (1900 + r.year.toInt) r.month.toInt = some c ∧ 1 ≤ r.monthDay.toInt
      ∧ r.monthDay.toInt ≤ monthLength (1900 + r.year.toInt) r.month.toInt
      ∧ 0 ≤ r.hour.toInt * 3600 + r.min.toInt * 60 + r.sec.toInt
      ∧ r.hour.toInt * 3600 + r.min.toInt * 60 + r.sec.toInt < 86400 := by
  obtain ⟨⟨hsec0, hsec1⟩, ⟨hmin0, hmin1⟩, ⟨hhour0, hhour1⟩, ⟨hmonth0, hmonth1⟩, hday, hlen⟩ := h
  unfold sext32 at *
  exact ⟨_, cum_eq_table _ hmonth0 hmonth1, hday, hlen, by omega, by omega⟩

/-- Settles O50: the date lies in its year, which ends before 1970 or begins no earlier. -/
theorem c2tIsNegativeExactlyBefore1970 : Obligations.C2tIsNegativeExactlyBefore1970 := by
  intro r h
  obtain ⟨c, hcum, hday, hlen, htime0, htime1⟩ := inRange_spec h
  refine ⟨_, secondsOfRecord_eq hcum, ?_⟩
  obtain ⟨hstart, hend⟩ := date_in_year hcum hday hlen
  have h1970 : leapCount 1970 = 0 := rfl
  rcases lt_or_ge r.year.toInt 70 with hyear | hyear
  · have := yearStart_mono (show 1900 + r.year.toInt + 1 ≤ 1970 by omega)
    omega
  · have := yearStart_mono (show 1970 ≤ 1900 + r.year.toInt by omega)
    omega

/-! ## The two converters undo each other (R192) -/

/-- The second count of T2C's record is T2C's operand, where the year fits its field. -/
theorem secondsOfRecord_recordOfTimestamp {t : Int} (dst : Bool) (hlow : -67768040609740800 ≤ t)
    (hhigh : t ≤ 67768036191676799) : secondsOfRecord (recordOfTimestamp t dst) = some t := by
  obtain ⟨c, hcum, -, -, -, -, -, hdays, -⟩ := civilOfDays_spec (t / 86400)
  have hyear : 1900 + (recordOfTimestamp t dst).year.toInt = (civilOfDays (t / 86400)).year := by
    rw [recordOfTimestamp_year dst hlow hhigh]
    omega
  rw [secondsOfRecord_eq (c := c) (by rw [hyear, recordOfTimestamp_month, hcum]), hyear,
    recordOfTimestamp_monthDay, recordOfTimestamp_hour, recordOfTimestamp_min,
    recordOfTimestamp_sec, ← hdays, Option.some.injEq]
  omega

/-- Settles O53: T2C delivers the record of its operand, whose second count is the operand. -/
theorem c2tOfT2cIsTheTimestamp : Obligations.C2tOfT2cIsTheTimestamp := by
  intro t dst s hlow hhigh
  refine ⟨recordOfTimestamp t.toInt dst, _, exec_t2c t dst s, rfl, ?_⟩
  rw [exec_c2t, execC2t_of_some _ (secondsOfRecord_recordOfTimestamp dst hlow hhigh), trunc64,
    BitVec.ofInt_toInt, timeResult_eq_ofNat]
  rfl

/-- The record of an in-range record's second count is that record, with the weekday and day of the
year of its date. -/
theorem recordOfTimestamp_of_inRange {r : CalendarRecord} {c days : Int} (h : InRange r)
    (hcum : cum (1900 + r.year.toInt) r.month.toInt = some c)
    (hdays : (1900 + r.year.toInt - 1970) * 365 + leapCount (1900 + r.year.toInt) + c
      + (r.monthDay.toInt - 1) = days) :
    recordOfTimestamp (days * 86400 + r.hour.toInt * 3600 + r.min.toInt * 60 + r.sec.toInt) r.isDst
      = { r with weekday := trunc32 ((days + 4) % 7)
                 yearDay := trunc32 (c + r.monthDay.toInt - 1) } := by
  obtain ⟨⟨hsec0, hsec1⟩, ⟨hmin0, hmin1⟩, ⟨hhour0, hhour1⟩, -, hday, hlen⟩ := h
  unfold sext32 at *
  have hdate := civilOfDays_of_date hcum hday hlen hdays
  generalize ht : days * 86400 + r.hour.toInt * 3600 + r.min.toInt * 60 + r.sec.toInt = t
  have hdiv : t / 86400 = days := by omega
  have hsec : t % 86400 % 60 = r.sec.toInt := by omega
  have hmin : t % 86400 % 3600 / 60 = r.min.toInt := by omega
  have hhour : t % 86400 / 3600 = r.hour.toInt := by omega
  have hyear : 1900 + r.year.toInt - 1900 = r.year.toInt := by omega
  simp only [recordOfTimestamp, hdiv, hsec, hmin, hhour, hdate, hyear, trunc32, BitVec.ofInt_toInt]

/-- Settles O54: the second count of an in-range record fits the port, so T2C reads it back. -/
theorem t2cOfC2tIsTheRecord : Obligations.T2cOfC2tIsTheRecord := by
  intro r s h
  obtain ⟨c, hcum, -⟩ := inRange_spec h
  have hseconds := secondsOfRecord_eq hcum
  have hread := sext64_trunc64_of_secondsOfRecord hseconds
  refine ⟨trunc64 _, _, c, _, execC2t_of_some s hseconds, congrArg some (timeResult_eq_ofNat _),
    hcum, dayCount_eq _ hcum, ?_⟩
  rw [exec_t2c, show (trunc64 _).toInt = _ from hread, recordOfTimestamp_of_inRange h hcum rfl]
  rfl

end Sys2Proof.Machine
end

section
/-!
PROOFS (60_exceptions.md). Waiting changes no register, every operation and every step completes, and
which steps leave a FRAME event: a step begins with the event port empty, so an event on it was written
by the operation performed, and only a minute boundary whose CONCLUDE succeeds writes one.
-/
namespace Sys2Proof.Machine

/-! ## Waiting (R215, R216) -/

theorem step_of_no_input {s : State} (hin : s.inputs = []) :
    step s = .next (openTransaction [] s) := by
  simp only [step, hin]

theorem step_of_rst {s : State} {rest : List HostInput} (hin : s.inputs = .rst :: rest) :
    step s = .next (applyReset rest s) := by
  simp only [step, hin]

/-- Settles O3: waiting takes nothing from the host's list, which is empty already. -/
theorem waitingChangesNoRegister : Obligations.WaitingChangesNoRegister := by
  intro s hin
  rw [step_of_no_input hin, ← hin]
  rfl

/-! ## Every operation and every step completes (R205) -/

theorem exec_total_of_writesResult {i : Instr} (hi : WritesResultFromDraws i) (s : State) :
    ∃ t, exec i s = .next t := by
  obtain ⟨_, _, hexec⟩ := hi
  exact ⟨_, hexec s⟩

theorem exec_total (i : Instr) (s : State) : ∃ t, exec i s = .next t := by
  cases i with
  | sample level ts => exact execSample_total level ts s
  | fdec f => exact exec_total_of_writesResult (writesResultFromDraws_fdec f) s
  | t2c x dst => exact exec_total_of_writesResult (writesResultFromDraws_t2c x dst) s
  | c2t r => exact exec_total_of_writesResult (writesResultFromDraws_c2t r) s
  | appendBit b => exact ⟨_, exec_appendBit b s⟩
  | conclude => exact ⟨_, rfl⟩

theorem step_total (s : State) : SafeStep s := by
  match hin : s.inputs with
  | [] => exact ⟨_, step_of_no_input hin⟩
  | .rst :: rest => exact ⟨_, step_of_rst hin⟩
  | .cmd w :: rest =>
    cases hd : decode w with
    | ok i =>
      obtain ⟨t, ht⟩ := exec_total i (openTransaction rest s)
      exact ⟨t, (step_of_decode_ok hin hd).trans ht⟩
    | error e => exact ⟨_, step_of_decode_error hin hd⟩

/-- Settles O7: the type of faults has no constructor. -/
theorem everyOperationAndStepCompletes : Obligations.EveryOperationAndStepCompletes :=
  ⟨nofun, exec_total, step_total⟩

/-! ## The FRAME event (R206, R128) -/

theorem concludeOk_iff_pos_eq (s : State) :
    concludeOk s = true ↔ s.pos = 59 ∧ s.parMin = s.buf.getLsbD 28
      ∧ s.parHour = s.buf.getLsbD 35 ∧ s.parDate = s.buf.getLsbD 58 := by
  rw [concludeOk_eq_decide, decide_eq_true_iff]

/-- A SAMPLE that changes the event port is a minute boundary whose CONCLUDE succeeded. -/
theorem execSample_frm_ne {level : Bool} {ts : TsWord} {s t : State}
    (h : execSample level ts s = .next t) (hne : t.frm ≠ s.frm) :
    level = false ∧ s.prevLevel = true ∧ 1200 ≤ elapsedMs s.prevTs ts ∧ concludeOk s = true
      ∧ t.frm = some ⟨s.buf, ts⟩ := by
  obtain ⟨-, rfl⟩ | ⟨hrise, -, -⟩ | ⟨hfall, hhigh, hlong, rfl⟩ | ⟨-, -, -, rfl⟩ := execSample_cases h
  · exact absurd rfl hne
  · obtain ⟨-, -, hrising⟩ := execSample_frame h
    exact absurd (hrising hrise) hne
  · rw [recordSample_frm, minuteBoundary_frm] at hne ⊢
    split at hne
    · next hok => exact ⟨hfall, hhigh, hlong, hok, if_pos hok⟩
    · exact absurd rfl hne
  · exact absurd rfl hne

theorem exec_frm_of_writesResult {i : Instr} {s t : State} (hi : WritesResultFromDraws i)
    (h : exec i s = .next t) : t.frm = s.frm := by
  obtain ⟨_, _, hexec⟩ := hi
  rw [← Host.Outcome.next.inj ((hexec s).symm.trans h)]
  rfl

/-- No other operation changes the event port (R128). -/
theorem eq_sample_of_frm_ne {i : Instr} {s t : State} (h : exec i s = .next t)
    (hne : t.frm ≠ s.frm) : ∃ level ts, i = .sample level ts := by
  cases i with
  | sample level ts => exact ⟨level, ts, rfl⟩
  | fdec f => exact absurd (exec_frm_of_writesResult (writesResultFromDraws_fdec f) h) hne
  | t2c x dst => exact absurd (exec_frm_of_writesResult (writesResultFromDraws_t2c x dst) h) hne
  | c2t r => exact absurd (exec_frm_of_writesResult (writesResultFromDraws_c2t r) h) hne
  | appendBit b =>
    cases h
    obtain ⟨-, -, -, hfrm, -⟩ := appendBit_frame b s
    exact absurd hfrm hne
  | conclude => cases h; exact absurd rfl hne

/-- The step of a minute boundary whose CONCLUDE succeeds leaves the buffer and the timestamp. -/
theorem frm_of_successful_minute {s t : State} {w : CommandWord} {rest : List HostInput}
    {ts : TsWord} (hin : s.inputs = .cmd w :: rest) (hd : decode w = .ok (.sample false ts))
    (hhigh : s.prevLevel = true) (hlong : 1200 ≤ elapsedMs s.prevTs ts)
    (hok : concludeOk s = true) (hstep : step s = .next t) : t.frm = some ⟨s.buf, ts⟩ := by
  rw [step_of_decode_ok hin hd, exec_sample,
    execSample_boundary (s := openTransaction rest s) hhigh hlong] at hstep
  cases hstep
  exact (minuteBoundary_frm ts (openTransaction rest s)).trans (if_pos hok)

/-- An event after a step was left by a minute boundary whose CONCLUDE succeeded, for the step began
with the port empty. -/
theorem successful_minute_of_frm {s t : State} {e : FrameEvent} (hstep : step s = .next t)
    (he : t.frm = some e) :
    ∃ w rest ts, s.inputs = .cmd w :: rest ∧ decode w = .ok (.sample false ts)
      ∧ s.prevLevel = true ∧ 1200 ≤ elapsedMs s.prevTs ts ∧ concludeOk s = true
      ∧ e = ⟨s.buf, ts⟩ := by
  obtain ⟨-, rfl⟩ | ⟨rest, -, rfl⟩ | ⟨w, rest, i, hin, hd, hexec⟩ | ⟨w, rest, _, -, -, rfl⟩ :=
    step_cases hstep
  · cases he
  · cases he
  · have hne : t.frm ≠ (openTransaction rest s).frm := by
      rw [he]
      exact Option.some_ne_none e
    obtain ⟨level, ts, rfl⟩ := eq_sample_of_frm_ne hexec hne
    obtain ⟨rfl, hhigh, hlong, hok, hfrm⟩ := execSample_frm_ne hexec hne
    exact ⟨w, rest, ts, hin, hd, hhigh, hlong, hok, Option.some.inj (he.symm.trans hfrm)⟩
  · cases he

/-- Settles O22. -/
theorem frameEventExactlyAtASuccessfulMinute :
    Obligations.FrameEventExactlyAtASuccessfulMinute := by
  intro s t e hstep
  constructor
  · intro he
    obtain ⟨w, rest, ts, hin, hd, hhigh, hlong, hok, heq⟩ := successful_minute_of_frm hstep he
    obtain ⟨hpos, hmin, hhour, hdate⟩ := (concludeOk_iff_pos_eq s).mp hok
    rw [elapsedMs_eq_mod] at hlong
    exact ⟨w, rest, ts, hin, hd, hhigh, hlong, hpos, hmin, hhour, hdate, heq⟩
  · rintro ⟨w, rest, ts, hin, hd, hhigh, hlong, hpos, hmin, hhour, hdate, rfl⟩
    rw [← elapsedMs_eq_mod] at hlong
    exact frm_of_successful_minute hin hd hhigh hlong
      ((concludeOk_iff_pos_eq s).mpr ⟨hpos, hmin, hhour, hdate⟩) hstep

end Sys2Proof.Machine
end

section
/-!
PROOFS (70_reset_and_hazards.md). Reset, and the dependence on the open reset parameters (R234). Each
update of SAMPLE keeps two states the same but for buffer bit 0: APPENDBIT copies no bit of the buffer and
clears the running parity before any latch takes it, and CONCLUDE reads the buffer at the three parity
bits only. A bit appended to an empty assembler may differ, since it goes to index 0.
-/
namespace Sys2Proof.Machine

/-! ## Reset (R230) -/

/-- Settles O2: the update written out is that of `applyReset`. -/
theorem resetIsATransitionFromAnyState : Obligations.ResetIsATransitionFromAnyState :=
  fun _ _ hin => step_of_rst hin

/-! ## The parity steps of APPENDBIT do not read what came before position 21 -/

/-- From the first segment's start on, the cleared running parity depends only on what was folded after
that start. -/
theorem clearAtStart_congr {p : Nat} {run run' : Bool} (hp : 21 ≤ p)
    (hrun : 21 < p → run' = run) : clearAtStart p run' = clearAtStart p run := by
  obtain rfl | hlt := hp.eq_or_lt
  · rfl
  · rw [hrun hlt]

/-- A latch past the first segment's start takes nothing folded before that start. -/
theorem latchAt_clearAtStart_congr {endPos p : Nat} {run run' old old' : Bool}
    (hend : 21 < endPos) (hrun : 21 < p → run' = run) (hold : old' = old) :
    latchAt endPos p (clearAtStart p run') old' = latchAt endPos p (clearAtStart p run) old := by
  rw [hold]
  by_cases hp : p = endPos
  · rw [clearAtStart_congr (by omega) hrun]
  · rw [latchAt, if_neg hp, latchAt, if_neg hp]

/-! ## The updates of SAMPLE keep two states the same but for bit 0 -/

section
variable {t u : State}

theorem sameButBitZero_recordSample (level : Bool) (ts : TsWord) (h : SameButBitZero t u) :
    SameButBitZero (recordSample level ts t) (recordSample level ts u) := by
  obtain ⟨hpos, -, -, hrest⟩ := h
  exact ⟨hpos, rfl, rfl, hrest⟩

/-- The two bits appended may differ only where they are stored, at index 0. -/
theorem sameButBitZero_appendBit {b c : Bool} (h : SameButBitZero t u)
    (hbit : t.pos.toNat = 0 ∨ c = b) : SameButBitZero (appendBit b t) (appendBit c u) := by
  have ⟨hpos, hlevel, hts, hmin, hhour, hdate, hres, hinputs, hdraws, hbuf, hrun⟩ := h
  by_cases hroom : t.pos.toNat < 59
  · have hnext := appendBit_pos_toNat b hroom
    rw [appendBit_room b hroom] at hnext ⊢
    rw [appendBit_room c (by rwa [hpos]), hpos]
    refine ⟨rfl, hlevel, hts, latchAt_clearAtStart_congr (by decide) hrun hmin,
      latchAt_clearAtStart_congr (by decide) hrun hhour,
      latchAt_clearAtStart_congr (by decide) hrun hdate, hres, hinputs, hdraws,
      fun i hi => ?_, fun hopen => ?_⟩
    · rw [bufWrite_getLsbD _ _ (by omega) i.isLt, bufWrite_getLsbD _ _ (by omega) i.isLt, hbuf i hi]
      exact ite_congr rfl (fun hat => hbit.resolve_left (hat ▸ hi)) fun _ => rfl
    · have hseg : 21 ≤ t.pos.toNat := by rwa [hnext, Nat.lt_succ_iff] at hopen
      rw [clearAtStart_congr hseg hrun, hbit.resolve_left (by omega)]
  · have hfull : 59 ≤ t.pos.toNat := Nat.not_lt.mp hroom
    rwa [appendBit_full b hfull, appendBit_full c (hpos ▸ hfull)]

/-- None of the three parity bits is bit 0. -/
theorem concludeOk_of_sameButBitZero (h : SameButBitZero t u) : concludeOk u = concludeOk t := by
  obtain ⟨hpos, -, -, hmin, hhour, hdate, -, -, -, hbuf, -⟩ := h
  have hbit28 : u.buf.getLsbD 28 = t.buf.getLsbD 28 := hbuf 28 (by decide)
  have hbit35 : u.buf.getLsbD 35 = t.buf.getLsbD 35 := hbuf 35 (by decide)
  have hbit58 : u.buf.getLsbD 58 = t.buf.getLsbD 58 := hbuf 58 (by decide)
  rw [Bool.eq_iff_iff, concludeOk_iff, concludeOk_iff, hpos, hmin, hhour, hdate,
    hbit28, hbit35, hbit58]

theorem sameButBitZero_clearAssembler (h : SameButBitZero t u) :
    SameButBitZero (clearAssembler t) (clearAssembler u) := by
  obtain ⟨-, hlevel, hts, -, -, -, hres, hinputs, hdraws, -, -⟩ := h
  exact ⟨rfl, hlevel, hts, rfl, rfl, rfl, hres, hinputs, hdraws, fun _ _ => rfl, fun _ => rfl⟩

/-- The event port is not compared. -/
theorem sameButBitZero_emitFrame (f g : FrameWord) (ts : TsWord) (h : SameButBitZero t u) :
    SameButBitZero (emitFrame f ts t) (emitFrame g ts u) := h

theorem sameButBitZero_minuteBoundary (ts : TsWord) (h : SameButBitZero t u) :
    SameButBitZero (minuteBoundary ts t) (minuteBoundary ts u) := by
  rw [minuteBoundary_eq, minuteBoundary_eq, concludeOk_of_sameButBitZero h]
  split
  · exact sameButBitZero_emitFrame _ _ ts (sameButBitZero_clearAssembler h)
  · exact sameButBitZero_clearAssembler h

/-- After a minute boundary nothing of the assembler differs (R127). -/
theorem minuteBoundary_removes_difference (ts : TsWord) (t u : State) :
    (minuteBoundary ts u).buf = (minuteBoundary ts t).buf
      ∧ (minuteBoundary ts u).parRun = (minuteBoundary ts t).parRun := by
  obtain ⟨hbuf, -, hrun, -⟩ := assemblerEmpty_minuteBoundary ts t
  obtain ⟨hbuf', -, hrun', -⟩ := assemblerEmpty_minuteBoundary ts u
  exact ⟨hbuf'.trans hbuf.symm, hrun'.trans hrun.symm⟩

/-! ## Delivery -/

/-- The two states have an event both or neither, with one timestamp and with frames that differ at most
in bit 0. -/
def DeliverTogether (t u : State) : Prop :=
  (t.frm = none ↔ u.frm = none)
    ∧ ∀ a b, t.frm = some a → u.frm = some b →
        a.ts = b.ts ∧ ∀ i : Fin 64, i.val ≠ 0 → a.frame.getLsbD i.val = b.frame.getLsbD i.val

theorem deliverTogether_of_none (ht : t.frm = none) (hu : u.frm = none) : DeliverTogether t u :=
  ⟨iff_of_true ht hu, fun _ _ ha _ => absurd (ht.symm.trans ha) (Option.some_ne_none _).symm⟩

theorem deliverTogether_minuteBoundary (ts : TsWord) (h : SameButBitZero t u) (ht : t.frm = none)
    (hu : u.frm = none) : DeliverTogether (minuteBoundary ts t) (minuteBoundary ts u) := by
  have hok := concludeOk_of_sameButBitZero h
  obtain ⟨-, -, -, -, -, -, -, -, -, hbuf, -⟩ := h
  by_cases hdelivers : concludeOk t = true
  · have hfrm : (minuteBoundary ts t).frm = some ⟨t.buf, ts⟩ := by
      rw [minuteBoundary_frm, if_pos hdelivers]
    have hfrm' : (minuteBoundary ts u).frm = some ⟨u.buf, ts⟩ := by
      rw [minuteBoundary_frm, hok, if_pos hdelivers]
    rw [DeliverTogether, hfrm, hfrm']
    refine ⟨iff_of_false (Option.some_ne_none _) (Option.some_ne_none _), ?_⟩
    rintro _ _ ⟨⟩ ⟨⟩
    exact ⟨rfl, fun i hi => (hbuf i hi).symm⟩
  · apply deliverTogether_of_none
    · rw [minuteBoundary_frm, if_neg hdelivers, ht]
    · rw [minuteBoundary_frm, hok, if_neg hdelivers, hu]

theorem appendBit_frm (b : Bool) (s : State) : (appendBit b s).frm = s.frm := by
  obtain ⟨-, -, -, hfrm, -⟩ := appendBit_frame b s
  exact hfrm

end

/-- Settles O34: the two states take the same branch of SAMPLE, whose updates keep them the same but for
bit 0; only the minute boundary delivers, and it removes the difference. -/
theorem bitZeroDifferenceNeverSpreads : Obligations.BitZeroDifferenceNeverSpreads := by
  intro t u level ts h htfrm hufrm
  rw [← elapsedMs_eq_mod]
  obtain ⟨t', ht⟩ := execSample_total level ts t
  have ⟨_, hlevel, hts, _⟩ := h
  obtain ⟨hrepeat, rfl⟩ | ⟨rfl, hlow, rfl⟩ | ⟨rfl, hhigh, hlong, rfl⟩ | ⟨rfl, hhigh, hshort, rfl⟩ :=
    execSample_cases ht
  · obtain ⟨htogether, hframes⟩ := deliverTogether_of_none htfrm hufrm
    refine ⟨_, u, ht, execSample_repeat ts (hlevel.trans hrepeat.symm), h, htogether, hframes, ?_⟩
    intro hhigh hfall
    rw [hfall, hhigh] at hrepeat
    cases hrepeat
  · have hu := execSample_rising ts (hlevel.trans hlow)
    obtain ⟨htogether, hframes⟩ := deliverTogether_of_none ((appendBit_frm _ t).trans htfrm)
      ((appendBit_frm (decide (170 ≤ elapsedMs u.prevTs ts)) u).trans hufrm)
    exact ⟨_, _, ht, hu, sameButBitZero_recordSample true ts
      (sameButBitZero_appendBit h (.inr (by rw [hts]))), htogether, hframes, nofun⟩
  · have hu := execSample_boundary (hlevel.trans hhigh) (hts ▸ hlong)
    obtain ⟨htogether, hframes⟩ := deliverTogether_minuteBoundary ts h htfrm hufrm
    exact ⟨_, _, ht, hu, sameButBitZero_recordSample false ts (sameButBitZero_minuteBoundary ts h),
      htogether, hframes, fun _ _ _ => minuteBoundary_removes_difference ts t u⟩
  · have hu := execSample_falling (hlevel.trans hhigh) (hts ▸ hshort)
    obtain ⟨htogether, hframes⟩ := deliverTogether_of_none htfrm hufrm
    exact ⟨_, _, ht, hu, sameButBitZero_recordSample false ts h, htogether, hframes,
      fun _ _ hlong => absurd hlong (Nat.not_le.mpr hshort)⟩

/-! ## The first sample after reset (R234) -/

theorem recordSample_appendBit (level : Bool) (ts : TsWord) (b : Bool) (s : State) :
    recordSample level ts (appendBit b s) = appendBit b (recordSample level ts s) := by
  by_cases hroom : s.pos.toNat < 59
  · rw [appendBit_room b hroom, appendBit_room (s := recordSample level ts s) b hroom]
    rfl
  · have hfull : 59 ≤ s.pos.toNat := Nat.not_lt.mp hroom
    rw [appendBit_full b hfull, appendBit_full (s := recordSample level ts s) b hfull]

/-- Once a sample is recorded, two reset states differ in the parameters only. -/
theorem sameButBitZero_recordSample_resetTo (p q : Config.ResetParams) (level : Bool) (ts : TsWord) :
    SameButBitZero (recordSample level ts (State.resetTo p))
      (recordSample level ts (State.resetTo q)) :=
  ⟨rfl, rfl, rfl, rfl, rfl, rfl, rfl, rfl, rfl, fun _ _ => rfl, fun _ => rfl⟩

theorem minuteBoundary_resetTo (ts : TsWord) (p : Config.ResetParams) :
    minuteBoundary ts (State.resetTo p) = State.resetTo p := rfl

/-- After reset a falling edge is only recorded, at whatever distance from the parameter. -/
theorem execSample_falling_resetTo (ts : TsWord) {p : Config.ResetParams}
    (h : p.prevLevel = true) :
    execSample false ts (State.resetTo p) = .next (recordSample false ts (State.resetTo p)) := by
  by_cases hlong : 1200 ≤ elapsedMs p.prevTs ts
  · rw [execSample_boundary h hlong, minuteBoundary_resetTo]
  · exact execSample_falling h (Nat.not_le.mp hlong)

/-- Settles O33: a falling edge is recorded; a rising edge appends a bit to the empty assembler, so the
two bits, timed against different parameters, differ at index 0 only. -/
theorem resetParametersAffectOnlyTheFirstSample :
    Obligations.ResetParametersAffectOnlyTheFirstSample := by
  intro p q level ts hp hq
  have hsame := sameButBitZero_recordSample_resetTo p q level ts
  cases level with
  | false =>
    exact ⟨_, _, execSample_falling_resetTo ts (Bool.eq_true_of_not_eq_false hp.symm),
      execSample_falling_resetTo ts (Bool.eq_true_of_not_eq_false hq.symm), hsame, rfl, rfl,
      fun _ => rfl⟩
  | true =>
    refine ⟨_, _, execSample_rising ts (Bool.eq_false_of_not_eq_true hp.symm),
      execSample_rising ts (Bool.eq_false_of_not_eq_true hq.symm), ?_, appendBit_frm _ _,
      appendBit_frm _ _, nofun⟩
    rw [recordSample_appendBit, recordSample_appendBit]
    exact sameButBitZero_appendBit hsame (.inl rfl)

end Sys2Proof.Machine
end

section
/-!
PROOFS (95_test_vectors.md). The command words the spec writes out: each that names an operation is the
operation's encoding, so that it decodes follows from the round trip.
-/
namespace Sys2Proof

/-- Settles O13: each of the first six words encodes the operation printed beside it, and `op` of
the seventh is a code R72 reserves. -/
theorem specCommandWordsDecode : Obligations.SpecCommandWordsDecode := by
  refine ⟨decode_of_encode ?sample, decode_of_encode ?sampleLast, decode_of_encode ?fdec,
    decode_of_encode ?t2cMinusOne, decode_of_encode ?t2cEpoch, decode_of_encode ?c2t, ?reserved⟩
  case reserved => exact decode_reserved (.inr (by decide))
  all_goals decide

end Sys2Proof
end
